-- ==== Sys2Proof/Word.lean ====
section
/-! DEFINITION. The field widths of the block (20_memory.md R42, 30_encoding.md R49) and the named values of its enumerations (30_encoding.md R59). -/

namespace Sys2Proof

/-- The command word, 36 bits (R52). -/
abbrev CmdWord := BitVec 36
/-- The command word's opcode field `cmd_word[3:0]` (R52). -/
abbrev Opcode := BitVec 4
/-- The command word's argument field `cmd_word[35:4]` (R52). -/
abbrev Arg := BitVec 32
/-- A millisecond timestamp, 32 bits, wrapping modulo 2^32 (R11). -/
abbrev Millis := BitVec 32
/-- A duty value, 16 bits unsigned (R17). -/
abbrev Duty := BitVec 16
/-- One ADC reading, 16 bits unsigned (R22). -/
abbrev Volt := BitVec 16
/-- The `sector` register's 3 bits: 0 to 5 are legal, 6 and 7 are what the contract checks look for (R16, R109). -/
abbrev Sector := BitVec 3
/-- A 3-bit Hall code, bit k = pin k (R58). -/
abbrev HallCode := BitVec 3
/-- A 2-bit phase code: A = 0, B = 1, C = 2, 3 illegal (R59). -/
abbrev PhaseCode := BitVec 2
/-- The 2-bit `FAULT` code (R29). -/
abbrev FaultCode := BitVec 2

/-- The motor states (R15, R78); all four encodings are legal. -/
inductive MotorState where
  | stopped | starting | running | locked
deriving DecidableEq, Repr, Inhabited

/-- The direction of rotation (R18). -/
inductive Direction where
  | forward | reverse
deriving DecidableEq, Repr, Inhabited

/-- The three motor phases (R59). -/
inductive Phase where
  | a | b | c
deriving DecidableEq, Repr, Inhabited

/-- The two PWM modes (R28). -/
inductive PwmMode where
  | dormant | driven
deriving DecidableEq, Repr, Inhabited

/-- The two kinds of position sensor (R24). -/
inductive SensorKind where
  | sensorless | hall
deriving DecidableEq, Repr, Inhabited

/-- One value for each of the phases A, B and C. -/
structure PerPhase (α : Type) where
  a : α
  b : α
  c : α
deriving DecidableEq, Repr, Inhabited

/-- One phase's PWM output registers `PWM_MODE[p]` and `PWM_DUTY[p]` (R28). -/
structure PwmOut where
  mode : PwmMode
  duty : Duty
deriving DecidableEq, Repr, Inhabited

/-- One PWM write event `(phase, mode, duty)` (R60). -/
structure PwmEvent where
  phase : Phase
  mode  : PwmMode
  duty  : Duty
deriving DecidableEq, Repr, Inhabited

/-- One row of the phase-role table: the phase driven high, the phase driven low and the dormant phase (R34). -/
structure PhaseRow where
  hi   : Phase
  lo   : Phase
  dorm : Phase
deriving DecidableEq, Repr, Inhabited

/-- The eight 3-bit entries of a Hall decode table, indexed by Hall code (R25, R36). -/
abbrev HallEntries := Vector (BitVec 3) 8

end Sys2Proof
end

