-- ==== Sys2Proof/Syntax.lean ====
section
/-! DEFINITION. The operations of the block: one constructor per row of the opcode table (30_encoding.md R53, R57; 70 R122; 41 R65; 42 R69). -/

namespace Sys2Proof

/-- Commands, events and internal operations. `Now()` and the straps are inputs of the step, not operands. -/
inductive Instr where
  /-- Command 0x0 (R98). -/
  | nop
  /-- Command 0x1 (R81). -/
  | init
  /-- Command 0x2 (R82). -/
  | start
  /-- Command 0x3 (R84). -/
  | stop
  /-- Command 0x4 with `dir = cmd_word[4]` (R99). -/
  | setDir (dir : Direction)
  /-- Command 0x5 with `duty = cmd_word[19:4]` (R100). -/
  | setDuty (duty : Duty)
  /-- Command 0x6 (R101). -/
  | getState
  /-- Command 0x7 with `until = cmd_word[35:4]` (R85). -/
  | lock (till : Millis)
  /-- Commands 0x8 to 0xF with any argument (R102). -/
  | reserved (op : Opcode) (arg : Arg)
  /-- The event `sample_valid = 1` with its four voltages (R88). -/
  | sample (va vb vc vbus : Volt)
  /-- The event `rst = 1` (R122). -/
  | reset
  /-- The internal operation of 41_position_sensor.md (R65). -/
  | resolveSector
  /-- The internal operation of 42_commutation.md at time `t` (R69). -/
  | commutate (t : Millis)
deriving DecidableEq, Repr

end Sys2Proof
end

