-- ==== Sys2Proof/WellFormed.lean ====
section
/-! DEFINITION. Which terms of Instr are operations of the block: the operand widths are in the types, so the one check left is that a reserved opcode is reserved (R56). -/

namespace Sys2Proof

/-- A reserved command's opcode is 0x8 to 0xF (R53, R102); every other term is well-formed. -/
def Instr.wellFormed : Instr → Bool
  | .reserved op _ => op.getLsbD 3
  | .nop | .init | .start | .stop | .setDir _ | .setDuty _ | .getState | .lock _ => true
  | .sample _ _ _ _ | .reset | .resolveSector | .commutate _ => true

end Sys2Proof
end

