-- ==== Sys2Proof/Decode.lean ====
section
/-! DEFINITION. The command word's decoder and encoder (30_encoding.md R52 to R56). -/

namespace Sys2Proof

/-- `op = cmd_word[3:0]` (R52). -/
def opField (w : CmdWord) : Opcode := w.extractLsb' 0 4

/-- `arg = cmd_word[35:4]` (R52). -/
def argField (w : CmdWord) : Arg := w.extractLsb' 4 32

/-- `dir = arg[0] = cmd_word[4]`: 0 = Forward, 1 = Reverse (R54, R59). -/
def dirOperand (a : Arg) : Direction := if a.getLsbD 0 then .reverse else .forward

/-- `duty = arg[15:0] = cmd_word[19:4]` (R54). -/
def dutyOperand (a : Arg) : Duty := a.extractLsb' 0 16

/-- The opcode map (R53): total, every 36-bit word selects exactly one row; unused argument bits are dropped (R55). -/
def decode (w : CmdWord) : Instr :=
  match opField w with
  | 0x0#4 => .nop
  | 0x1#4 => .init
  | 0x2#4 => .start
  | 0x3#4 => .stop
  | 0x4#4 => .setDir (dirOperand (argField w))
  | 0x5#4 => .setDuty (dutyOperand (argField w))
  | 0x6#4 => .getState
  | 0x7#4 => .lock (argField w)
  | op    => .reserved op (argField w)

/-- The word with opcode `op` and argument `a` (R52). -/
def cmdWordOf (op : Opcode) (a : Arg) : CmdWord := a ++ op

/-- The direction's bit (R59). -/
def dirBit : Direction → BitVec 1
  | .forward => 0
  | .reverse => 1

/-- The command word of an operation, unused argument bits zero (R52 to R55, R64); the events and the internal
operations have no command word (R57, R122, R65, R69). -/
def encode : Instr → Option CmdWord
  | .nop => some (cmdWordOf 0x0 0)
  | .init => some (cmdWordOf 0x1 0)
  | .start => some (cmdWordOf 0x2 0)
  | .stop => some (cmdWordOf 0x3 0)
  | .setDir d => some (cmdWordOf 0x4 ((dirBit d).setWidth 32))
  | .setDuty d => some (cmdWordOf 0x5 (d.setWidth 32))
  | .getState => some (cmdWordOf 0x6 0)
  | .lock t => some (cmdWordOf 0x7 t)
  | .reserved op a => some (cmdWordOf op a)
  | .sample _ _ _ _ | .reset | .resolveSector | .commutate _ => none

/-- The command whose bits are the low `nbits` bits of `w`, bits above them zero; refused where they do not fit the
36-bit command word (R52, R61). -/
def decodeTableWord (nbits w : Nat) : Option Instr :=
  if w % 2 ^ nbits < 2 ^ 36 then some (decode (BitVec.ofNat 36 (w % 2 ^ nbits))) else none

end Sys2Proof
end

