-- ==== Sys2Proof/Machine/Registers.lean ====
section
/-! DEFINITION. The architectural registers of 10_state.md (R15 to R30) and the input ports of 30_encoding.md R49, each as one record of plain data. -/

namespace Sys2Proof.Machine

/-- Every register of the block (10_state.md; the block has no other state, R32). -/
structure Regs where
  /-- The motor state (R15). -/
  state : MotorState
  /-- The rotor sector (R16). -/
  sector : Sector
  /-- The applied duty (R17). -/
  dutyCycle : Duty
  /-- The direction latched at START (R18). -/
  direction : Direction
  /-- The time of the last START; no rule reads it (R19). -/
  startTime : Millis
  /-- The watchdog's reference time (R20). -/
  lastCommutationTime : Millis
  /-- The lockout's end (R21). -/
  lockUntilTime : Millis
  /-- The last sampled phase voltages `V[A]`, `V[B]`, `V[C]` (R22). -/
  v : PerPhase Volt
  /-- The dormant-phase selector `DSEL` (R23). -/
  dsel : PhaseCode
  /-- The sensor kind `SK` (R24). -/
  sk : SensorKind
  /-- The Hall decode table copy `HDT[0..7]` (R25). -/
  hdt : HallEntries
  /-- The commanded direction `CMD_DIR` (R26). -/
  cmdDir : Direction
  /-- The commanded duty `CMD_DUTY`; no rule reads it (R27). -/
  cmdDuty : Duty
  /-- The PWM output registers `PWM_MODE[p]`, `PWM_DUTY[p]` (R28). -/
  pwm : PerPhase PwmOut
  /-- The sticky contract-violation code `FAULT` (R29). -/
  fault : FaultCode
  /-- The response register `RSP`, encoded as `state` (R30). -/
  rsp : MotorState
deriving DecidableEq, Repr, Inhabited

/-- The input ports of one step (R49), sampled once in that step (R129). -/
structure Ports where
  rst : Bool
  cmdValid : Bool
  cmdWord : CmdWord
  sampleValid : Bool
  adcVa : Volt
  adcVb : Volt
  adcVc : Volt
  adcVbus : Volt
  hallIn : BitVec 3
  nowMs : Millis
  /-- 0 = Sensorless, 1 = Hall. -/
  cfgSensorKind : BitVec 1
  cfgHallSel : BitVec 4
deriving DecidableEq, Repr, Inhabited

end Sys2Proof.Machine
end

