-- ==== Sys2Proof/Config.lean ====
section
/-! DEFINITION. The implementation parameters of 00_scope.md R6 as plain data, and the free values: constants without a body for what the spec leaves OPEN. -/

namespace Sys2Proof

open Machine

/-- The timestamp comparison `TIME_CMP` (R12). -/
inductive TimeCmp where
  | wrapSafe | raw
deriving DecidableEq, Repr, Inhabited

/-- The handling of opcodes 0x8 to 0xF, `RESERVED_OP_POLICY` (R102). -/
inductive ReservedOpPolicy where
  | nop | refuse
deriving DecidableEq, Repr, Inhabited

/-- The Starting to Running condition `PROMOTE` (R86): the spec's default `never`, the constant true of vector V-G14, or
a designed predicate of the registers and the step's inputs, about which nothing is known (`Config.promote`). -/
inductive Promote where
  | never | always | designed
deriving DecidableEq, Repr, Inhabited

/-- The admitted values of `PHASE_TABLE` (R34); R35 says that no other table is admitted. -/
inductive PhaseTable where
  | canonical | parityMatched
deriving DecidableEq, Repr, Inhabited

/-- One admitted Hall calibration table (R37): its entries for the codes 1 to 6, each 0 to 6; the entries for the codes
0 and 7 are 6 in every admitted table. -/
structure HallTable where
  codes : Vector (Fin 7) 6
deriving DecidableEq, Repr, Inhabited

/-- The parameters of R6 that the source does not fix. -/
structure Params where
  phaseTable : PhaseTable
  /-- `HALL_TABLES[1..11]`, table number n at index n - 1 (R36). -/
  hallTables : Vector HallTable 11
  startDuty : Duty
  promote : Promote
  timeCmp : TimeCmp
  reservedOp : ReservedOpPolicy
deriving DecidableEq, Repr, Inhabited

/-- FREE VALUE: `START_DUTY`, OPEN in the source (R6, D8). -/
opaque Config.startDuty : Duty

/-- FREE VALUE: `HALL_TABLES[n + 1]`, OPEN in the source but for R37, which the type holds it to (R36, D7). -/
opaque Config.hallTable : Fin 11 → HallTable

/-- FREE VALUE: the designed `PROMOTE` predicate over the registers and the step's inputs (R86, D9). -/
opaque Config.promote : Regs → Ports → Bool

/-- FREE VALUE: the inputs the environment presents in the step numbered by the argument, where no frame is known. -/
opaque Config.freePorts : Nat → Ports

/-- The parameters at the spec's defaults, the OPEN ones at their free values (R6). -/
def Params.default : Params where
  phaseTable := .canonical
  hallTables := #v[Config.hallTable 0, Config.hallTable 1, Config.hallTable 2, Config.hallTable 3, Config.hallTable 4,
    Config.hallTable 5, Config.hallTable 6, Config.hallTable 7, Config.hallTable 8, Config.hallTable 9, Config.hallTable 10]
  startDuty := Config.startDuty
  promote := .never
  timeCmp := .wrapSafe
  reservedOp := .nop

end Sys2Proof
end

