-- ==== Sys2Proof/Machine/State.lean ====
section
/-! DEFINITION. The machine's state as plain data, its reasons to stop, and the state right after a reset step (10_state.md, 70_reset_and_hazards.md R122). -/

namespace Sys2Proof.Machine

/-- Reasons to stop with a fault: none. A contract violation sets the register `FAULT` and halts the block until reset,
which is a next state (R110, R111; log entry 9); no other event of the spec stops the machine. -/
inductive Fault where
deriving DecidableEq, Repr

/-- Reasons to refuse. Each is safe: the model stops where the spec gives a run no next state. -/
inductive Refusal where
  /-- Raised by `exec` for an instruction without a meaning; no arm raises it. Safe. -/
  | notModelled (mnemonic : String)
  /-- Raised by INIT and RESET when the sampled `cfg_hall_sel` is 12 to 15: the configuration is refused (R38, D27). Safe. -/
  | hallSelect (sel : BitVec 4)
  /-- Raised by RESERVED under `RESERVED_OP_POLICY = REFUSE` (R102). Safe. -/
  | reservedOpcode (op : Opcode)
  /-- Raised by `State.configure` for a PHASE_TABLE that breaks R35. Safe. -/
  | phaseTable
  /-- Raised by `State.configure` for a Hall table that breaks R37, with its number. Safe. -/
  | hallTable (number : Nat)
deriving DecidableEq, Repr

end Sys2Proof.Machine

namespace Sys2Proof.Machine

/-- The state: the block's registers, the step's PWM event list, the input ports of the step, the frames the environment
has still to present, the step counter and the parameters. -/
structure State where
  /-- The registers (R15 to R30). -/
  regs : Regs
  /-- The output `pwm_events`: the PWM writes of the step, oldest first (R60). -/
  pwmEvents : List PwmEvent
  /-- The input ports as sampled in the step (R49, R129). -/
  ports : Ports
  /-- The model's own: the frames of the coming steps, the next one first; where it is empty the frame is free. -/
  pendingInputs : List Ports
  /-- The model's own: the number of the next step, which draws its free frame. -/
  tick : Nat
  /-- The parameters (R6); no step changes them. -/
  params : Params
deriving DecidableEq, Repr, Inhabited

/-- The registers after a reset step with every other input 0: Sensorless, Hall table 0 (R122, R123; the straps are a
DESIGN CHOICE, log entry 3). -/
def Regs.reset : Regs where
  state := .stopped
  sector := 0
  dutyCycle := 0
  direction := .forward
  startTime := 0
  lastCommutationTime := 0
  lockUntilTime := 0
  v := ⟨0, 0, 0⟩
  dsel := 2
  sk := .sensorless
  hdt := #v[6, 1, 3, 2, 5, 0, 4, 6]
  cmdDir := .forward
  cmdDuty := 0
  pwm := ⟨⟨.dormant, 0⟩, ⟨.dormant, 0⟩, ⟨.dormant, 0⟩⟩
  fault := 0
  rsp := .stopped

/-- The frame of a reset step with every other input 0 (R62, R122). -/
def Ports.resetFrame : Ports where
  rst := true
  cmdValid := false
  cmdWord := 0
  sampleValid := false
  adcVa := 0
  adcVb := 0
  adcVc := 0
  adcVbus := 0
  hallIn := 0
  nowMs := 0
  cfgSensorKind := 0
  cfgHallSel := 0

/-- The state right after a reset step under the parameters `p` (R122, R123). -/
def State.resetWith (p : Params) : State where
  regs := Regs.reset
  pwmEvents := [⟨.a, .dormant, 0⟩, ⟨.b, .dormant, 0⟩, ⟨.c, .dormant, 0⟩]
  ports := Ports.resetFrame
  pendingInputs := []
  tick := 0
  params := p

/-- The state right after reset under the default parameters. -/
def State.reset : State := State.resetWith Params.default

end Sys2Proof.Machine
end

