-- ==== Sys2Proof/Machine/Operands.lean ====
section
/-! DEFINITION. Operand forms: numeric encodings (30_encoding.md R59), Hall code assembly (R58), per-phase selection (20_memory.md R39) and the output ports (R50). -/

namespace Sys2Proof.Machine

/-- state: Stopped = 0, Starting = 1, Running = 2, Locked = 3 (R59). -/
def stateCode : MotorState → BitVec 2
  | .stopped => 0
  | .starting => 1
  | .running => 2
  | .locked => 3

/-- phase: A = 0, B = 1, C = 2 (R59). -/
def phaseCode : Phase → PhaseCode
  | .a => 0
  | .b => 1
  | .c => 2

/-- The phase of a 2-bit code; 3 names none (R59). -/
def phaseOfCode : PhaseCode → Option Phase
  | 0#2 => some .a
  | 1#2 => some .b
  | 2#2 => some .c
  | _   => none

/-- PWM mode: Dormant = 0, Driven = 1 (R59). -/
def modeCode : PwmMode → BitVec 1
  | .dormant => 0
  | .driven => 1

/-- sensor kind: Sensorless = 0, Hall = 1 (R24, R59). -/
def sensorKindCode : SensorKind → BitVec 1
  | .sensorless => 0
  | .hall => 1

/-- The sensor kind of the strap `cfg_sensor_kind`: 0 = Sensorless, 1 = Hall (R49). -/
def sensorKindOfCode (b : BitVec 1) : SensorKind := if b = 1 then .hall else .sensorless

/-- Fault code 1, SECTOR_RANGE (R59). -/
def faultSectorRange : FaultCode := 1

/-- Fault code 2, DSEL_INVALID (R59). -/
def faultDselInvalid : FaultCode := 2

/-- `code[2:0] = {hall_in[2], hall_in[1], hall_in[0]}` (R58). -/
def hallCode (h : BitVec 3) : HallCode :=
  BitVec.ofBool (h.getLsbD 2) ++ BitVec.ofBool (h.getLsbD 1) ++ BitVec.ofBool (h.getLsbD 0)

/-- The entry of a Hall decode table at a Hall code (R36). -/
def hallEntry (t : HallEntries) (c : HallCode) : BitVec 3 := t[c.toNat]'c.isLt

/-- The value of a per-phase record at phase `p` (R39). -/
def PerPhase.get {α : Type} (x : PerPhase α) : Phase → α
  | .a => x.a
  | .b => x.b
  | .c => x.c

/-- A per-phase record with the value at phase `p` replaced. -/
def PerPhase.set {α : Type} (x : PerPhase α) (p : Phase) (y : α) : PerPhase α :=
  match p with
  | .a => { x with a := y }
  | .b => { x with b := y }
  | .c => { x with c := y }

/-- The output ports at the end of a step (R50). -/
structure Outputs where
  stateOut : BitVec 2
  rspState : BitVec 2
  pwmMode : PerPhase (BitVec 1)
  pwmDuty : PerPhase Duty
  pwmEvents : List PwmEvent
  faultOut : FaultCode
deriving DecidableEq, Repr

/-- What the block shows the outside world (R50); reading it changes nothing (R43). -/
def State.outputs (s : State) : Outputs where
  stateOut := stateCode s.regs.state
  rspState := stateCode s.regs.rsp
  pwmMode := ⟨modeCode s.regs.pwm.a.mode, modeCode s.regs.pwm.b.mode, modeCode s.regs.pwm.c.mode⟩
  pwmDuty := ⟨s.regs.pwm.a.duty, s.regs.pwm.b.duty, s.regs.pwm.c.duty⟩
  pwmEvents := s.pwmEvents
  faultOut := s.regs.fault

end Sys2Proof.Machine
end

