-- ==== Sys2Proof/Machine/Flags.lean ====
section
/-! DEFINITION. The block has no flag register (10_state.md R14); here are the predicates and values it computes within a step and does not store (00 R12; 42 R70, R72; 44 R89, R92, R93). -/

namespace Sys2Proof.Machine

/-- `after(a, b)`: a is later than b (R12). -/
def after (cmp : TimeCmp) (a b : Millis) : Bool :=
  match cmp with
  | .wrapSafe => decide (0 < (a - b).toInt)
  | .raw => decide (b.toNat < a.toNat)

/-- The forced-commutation timeout `WATCHDOG_MS` (R6, R93). -/
def watchdogMs : Millis := 25

/-- `wd = after(t, (lastCommutationTime + 25) mod 2^32)` (R93). -/
def watchdog (cmp : TimeCmp) (t last : Millis) : Bool := after cmp t (last + watchdogMs)

/-- `neutral = vbus >> 1` (R89). -/
def neutral (vbus : Volt) : Volt := vbus >>> 1

/-- The zero-crossing level test: below neutral in an odd sector, above it in an even one (R92). -/
def zeroCross (sector : Sector) (vd neutral : Volt) : Bool :=
  if sector.toNat % 2 = 1 then decide (vd.toNat < neutral.toNat) else decide (neutral.toNat < vd.toNat)

/-- The sector sequencer: `(sector + 1) mod 6` Forward, `(sector + 5) mod 6` Reverse, computed exactly (R70). -/
def nextSector (d : Direction) (sector : Sector) : Fin 6 :=
  match d with
  | .forward => Fin.ofNat 6 (sector.toNat + 1)
  | .reverse => Fin.ofNat 6 (sector.toNat + 5)

/-- A sector number as the 3-bit register holds it (R16). -/
def sectorBits (k : Fin 6) : Sector := BitVec.ofNat 3 k.val

/-- The centre of the actuation range, `MIDPOINT` (R6). -/
def dutyMidpoint : Nat := 32767

/-- `half = dutyCycle >> 1` (R72). -/
def halfDuty (d : Duty) : Nat := d.toNat >>> 1

/-- `highSideDuty = 32767 + half`, exact before it is narrowed (R72). -/
def highSideDuty (d : Duty) : Duty := BitVec.ofNat 16 (dutyMidpoint + halfDuty d)

/-- `lowSideDuty = 32767 - half`, exact before it is narrowed (R72). -/
def lowSideDuty (d : Duty) : Duty := BitVec.ofNat 16 (dutyMidpoint - halfDuty d)

end Sys2Proof.Machine
end

