-- ==== Sys2Proof/Machine/Tables.lean ====
section
/-! DEFINITION. The ROM tables of 20_memory.md (R34 to R38), which raw tables are admitted, and loading a configuration. -/

namespace Sys2Proof.Machine

/-- `RomPhase(s)` for a sector 0 to 5: row `s` of PHASE_TABLE (R34). -/
def romPhase : PhaseTable → Fin 6 → PhaseRow
  | .canonical, 0 => ⟨.a, .b, .c⟩
  | .canonical, 1 => ⟨.a, .c, .b⟩
  | .canonical, 2 => ⟨.b, .c, .a⟩
  | .canonical, 3 => ⟨.b, .a, .c⟩
  | .canonical, 4 => ⟨.c, .a, .b⟩
  | .canonical, 5 => ⟨.c, .b, .a⟩
  | .parityMatched, 0 => ⟨.a, .b, .c⟩
  | .parityMatched, 1 => ⟨.c, .b, .a⟩
  | .parityMatched, 2 => ⟨.c, .a, .b⟩
  | .parityMatched, 3 => ⟨.b, .a, .c⟩
  | .parityMatched, 4 => ⟨.b, .c, .a⟩
  | .parityMatched, 5 => ⟨.a, .c, .b⟩

/-- `HALL_TABLES[0]`, the one Hall table the source gives (R36). -/
def hallTable0 : HallEntries := #v[6, 1, 3, 2, 5, 0, 4, 6]

/-- The eight entries of an admitted Hall table: the sentinel 6 at the codes 0 and 7 (R37). -/
def hallEntriesOf (t : HallTable) : HallEntries :=
  #v[6, BitVec.ofNat 3 t.codes[0].val, BitVec.ofNat 3 t.codes[1].val, BitVec.ofNat 3 t.codes[2].val,
    BitVec.ofNat 3 t.codes[3].val, BitVec.ofNat 3 t.codes[4].val, BitVec.ofNat 3 t.codes[5].val, 6]

/-- `HALL_TABLES[n]` for `n` 0 to 11; a selection of 12 to 15 has no table (R36, R38). -/
def hallTables (p : Params) (sel : BitVec 4) : Option HallEntries :=
  if sel = 0 then some hallTable0
  else (p.hallTables[sel.toNat - 1]?).map hallEntriesOf

/-- A row of a phase table given to the model, as three 2-bit phase codes (R34). -/
structure RawRow where
  hi   : PhaseCode
  lo   : PhaseCode
  dorm : PhaseCode
deriving DecidableEq, Repr

/-- A phase table given to the model, one row per sector 0 to 5 (R34). -/
abbrev RawPhaseTable := Vector RawRow 6

/-- R35, first constraint: the three phases are pairwise distinct and cover A, B and C. -/
abbrev RawRow.Disjoint (r : RawRow) : Prop :=
  r.hi ≠ 3 ∧ r.lo ≠ 3 ∧ r.dorm ≠ 3 ∧ r.hi ≠ r.lo ∧ r.hi ≠ r.dorm ∧ r.lo ≠ r.dorm

/-- R35, third constraint: from row `r` to the next row `n` the dormant phase changes, exactly one driven phase keeps its
role, and the other two phases swap roles. -/
abbrev RawRow.StepsTo (r n : RawRow) : Prop :=
  n.dorm ≠ r.dorm ∧
    ((n.hi = r.hi ∧ n.lo ≠ r.lo ∧ n.lo = r.dorm ∧ n.dorm = r.lo) ∨
      (n.lo = r.lo ∧ n.hi ≠ r.hi ∧ n.hi = r.dorm ∧ n.dorm = r.hi))

/-- R35: the four constraints on a phase table. -/
abbrev RawPhaseTable.Admitted (t : RawPhaseTable) : Prop :=
  (∀ k : Fin 6, RawRow.Disjoint t[k]) ∧
    t[3] = ⟨1, 0, 2⟩ ∧
    (∀ k : Fin 6, RawRow.StepsTo t[k] t[k + 1]) ∧
    (∀ j k : Fin 6, t[j] = t[k] → j = k)

/-- A row's phases as codes (R59). -/
def rawRow (r : PhaseRow) : RawRow := ⟨phaseCode r.hi, phaseCode r.lo, phaseCode r.dorm⟩

/-- A phase table's rows as codes. -/
def rawPhaseTable (t : PhaseTable) : RawPhaseTable :=
  #v[rawRow (romPhase t 0), rawRow (romPhase t 1), rawRow (romPhase t 2), rawRow (romPhase t 3), rawRow (romPhase t 4),
    rawRow (romPhase t 5)]

/-- The phase table a raw table stands for; a table that breaks R35 is refused. -/
def loadPhaseTable (t : RawPhaseTable) : Option PhaseTable :=
  if RawPhaseTable.Admitted t then [PhaseTable.canonical, .parityMatched].find? (fun p => rawPhaseTable p = t) else none

/-- R37: entries 0 and 7 are 6, and entries 1 to 6 are 0 to 6. -/
abbrev HallAdmitted (t : HallEntries) : Prop := t[0] = 6 ∧ t[7] = 6 ∧ ∀ c : HallCode, hallEntry t c ≠ 7

/-- The admitted Hall table a raw table stands for (meant for tables that satisfy R37). -/
def loadHallTable (t : HallEntries) : HallTable :=
  ⟨#v[Fin.ofNat 7 t[1].toNat, Fin.ofNat 7 t[2].toNat, Fin.ofNat 7 t[3].toNat, Fin.ofNat 7 t[4].toNat,
    Fin.ofNat 7 t[5].toNat, Fin.ofNat 7 t[6].toNat]⟩

/-- A configuration as it is given to the model, before its tables are checked (R6). -/
structure RawConfig where
  phaseTable : RawPhaseTable
  /-- `HALL_TABLES[1..11]`, table number n at index n - 1. -/
  hallTables : Vector HallEntries 11
  startDuty : Duty
  promote : Promote
  timeCmp : TimeCmp
  reservedOp : ReservedOpPolicy
deriving DecidableEq, Repr

/-- The block built with a configuration, right after reset; a configuration whose tables break R35 or R37 is refused. -/
def State.configure (c : RawConfig) : Host.Outcome State Fault Refusal :=
  match loadPhaseTable c.phaseTable, c.hallTables.toList.findIdx? (fun t => ¬ HallAdmitted t) with
  | none, _ => .refused .phaseTable
  | some _, some n => .refused (.hallTable (n + 1))
  | some t, none => .next (State.resetWith
      { phaseTable := t
        hallTables := c.hallTables.map loadHallTable
        startDuty := c.startDuty
        promote := c.promote
        timeCmp := c.timeCmp
        reservedOp := c.reservedOp })

end Sys2Proof.Machine
end

