-- ==== Sys2Proof/Machine/Ops.lean ====
section
/-! DEFINITION. The shared operations on the state: the pseudocode primitives (00_scope.md R10), raising a fault and the halt (60_exceptions.md R110, R111), RESOLVE_SECTOR (41 R65), COMMUTATE (42 R69) and the INIT effect (43 R81). -/

namespace Sys2Proof.Machine

/-- `Now()`: the step's one sample of `now_ms` (R11). -/
def State.now (s : State) : Millis := s.ports.nowMs

/-- The effect of a PWM write on the output registers (R60). -/
def PwmEvent.apply (pwm : PerPhase PwmOut) (e : PwmEvent) : PerPhase PwmOut := PerPhase.set pwm e.phase ⟨e.mode, e.duty⟩

/-- `PwmWrite(p, mode, duty)`: the phase's output registers, and the event at the end of the step's list (R10, R60). -/
def State.pwmWrite (s : State) (p : Phase) (mode : PwmMode) (duty : Duty) : State :=
  { s with
    regs := { s.regs with pwm := PwmEvent.apply s.regs.pwm ⟨p, mode, duty⟩ }
    pwmEvents := s.pwmEvents ++ [⟨p, mode, duty⟩] }

/-- (Dormant, 0) to A, then B, then C, as STOP, INIT, LOCK and a fault write it (R81, R84, R85, R110). -/
def State.allDormant (s : State) : State :=
  ((s.pwmWrite .a .dormant 0).pwmWrite .b .dormant 0).pwmWrite .c .dormant 0

/-- `raise Fault(code)`, the block's one exception: FAULT is set and the outputs go dormant; nothing else is saved, and
what the step has written stands (R110). -/
def State.raiseFault (s : State) (code : FaultCode) : State :=
  State.allDormant { s with regs := { s.regs with fault := code } }

/-- An operation while the block is not halted; while `FAULT ≠ 0` every operation is a no-op (R87, R111). -/
def State.unlessHalted (s : State) (f : State → Host.Outcome State Fault Refusal) : Host.Outcome State Fault Refusal :=
  if s.regs.fault = 0 then f s else .next s

/-- RESOLVE_SECTOR (R65 to R67): the Hall table's entry for the step's Hall code, unless Sensorless or the sentinel 6. -/
def State.resolveSector (s : State) : State :=
  match s.regs.sk with
  | .sensorless => s
  | .hall =>
    if hallEntry s.regs.hdt (hallCode s.ports.hallIn) = 6 then s
    else { s with regs := { s.regs with sector := hallEntry s.regs.hdt (hallCode s.ports.hallIn) } }

/-- COMMUTATE's steps 1 to 6 once the contract check has passed, into sector `k` (R70 to R75). -/
def State.commutateTo (s : State) (k : Fin 6) (t : Millis) : State :=
  let row := romPhase s.params.phaseTable k
  let d := s.regs.dutyCycle
  let s := { s with regs := { s.regs with sector := sectorBits k } }
  let s := ((s.pwmWrite row.dorm .dormant d).pwmWrite row.hi .driven (highSideDuty d)).pwmWrite row.lo .driven (lowSideDuty d)
  { s with
    regs := { s.regs with
      dsel := phaseCode row.dorm
      lastCommutationTime := if s.regs.state = .starting then t else s.regs.lastCommutationTime } }

/-- COMMUTATE(t) (R69): the contract check (R109), then the commutation. -/
def State.commutate (s : State) (t : Millis) : State :=
  if 5 < s.regs.sector.toNat then s.raiseFault faultSectorRange
  else s.commutateTo (nextSector s.regs.direction s.regs.sector) t

/-- The INIT effect with the selected Hall table `table` (R81). -/
def State.initWith (s : State) (table : HallEntries) : State :=
  let s := s.allDormant
  State.resolveSector
    { s with
      regs := { s.regs with state := .stopped, sk := sensorKindOfCode s.ports.cfgSensorKind, hdt := table, sector := 0 } }

/-- The INIT effect on the step's straps; `cfg_hall_sel` 12 to 15 refuses the configuration (R38, R81). -/
def State.initFromStraps (s : State) : Host.Outcome State Fault Refusal :=
  match hallTables s.params s.ports.cfgHallSel with
  | some table => .next (s.initWith table)
  | none => .refused (.hallSelect s.ports.cfgHallSel)

/-- Stage 1 of reset: every register that R122 lists, at its reset value. -/
def State.resetRegisters (s : State) : State :=
  { s with
    regs := { s.regs with
      state := .stopped
      sector := 0
      dutyCycle := 0
      direction := .forward
      startTime := 0
      lastCommutationTime := 0
      lockUntilTime := 0
      v := ⟨0, 0, 0⟩
      dsel := phaseCode (romPhase s.params.phaseTable 0).dorm
      cmdDir := .forward
      cmdDuty := 0
      pwm := ⟨⟨.dormant, 0⟩, ⟨.dormant, 0⟩, ⟨.dormant, 0⟩⟩
      fault := 0
      rsp := .stopped } }

/-- Whether `PROMOTE` holds on the registers and the step's inputs (R86, R95). -/
def State.promoteHolds (s : State) : Bool :=
  match s.params.promote with
  | .never => false
  | .always => true
  | .designed => Config.promote s.regs s.ports

/-- The promotion check at the end of a SAMPLE that began in Starting (R95). -/
def State.promoteCheck (s : State) : State :=
  if s.promoteHolds then { s with regs := { s.regs with state := .running } } else s

/-- The two ways a step goes on after an operation: with the state it left, or not at all. -/
def andThen (o : Host.Outcome State Fault Refusal) (f : State → Host.Outcome State Fault Refusal) :
    Host.Outcome State Fault Refusal :=
  match o with
  | .next s => f s
  | .fault r => .fault r
  | .refused r => .refused r

end Sys2Proof.Machine
end

