-- ==== Sys2Proof/Machine/Command.lean ====
section
/-! DEFINITION. The commands that change no motor state: NOP, SET_DIR, SET_DUTY, GET_STATE and the reserved opcodes (45_command_interface.md R98 to R102). -/

namespace Sys2Proof.Machine

/-- NOP (R98). -/
def execNop (s : State) : Host.Outcome State Fault Refusal := s.unlessHalted fun s => .next s

/-- SET_DIR (R99). -/
def execSetDir (dir : Direction) (s : State) : Host.Outcome State Fault Refusal :=
  s.unlessHalted fun s => .next { s with regs := { s.regs with cmdDir := dir } }

/-- SET_DUTY (R100). -/
def execSetDuty (duty : Duty) (s : State) : Host.Outcome State Fault Refusal :=
  s.unlessHalted fun s => .next { s with regs := { s.regs with cmdDuty := duty } }

/-- GET_STATE (R101). -/
def execGetState (s : State) : Host.Outcome State Fault Refusal :=
  s.unlessHalted fun s => .next { s with regs := { s.regs with rsp := s.regs.state } }

/-- The reserved opcodes under `RESERVED_OP_POLICY`; the argument is ignored (R102). -/
def execReserved (op : Opcode) (_arg : Arg) (s : State) : Host.Outcome State Fault Refusal :=
  s.unlessHalted fun s =>
    match s.params.reservedOp with
    | .nop => .next s
    | .refuse => .refused (.reservedOpcode op)

end Sys2Proof.Machine
end

