-- ==== Sys2Proof/Machine/Engine.lean ====
section
/-! DEFINITION. The internal operations as instructions of the table: RESOLVE_SECTOR (41_position_sensor.md R65) and COMMUTATE (42_commutation.md R69). -/

namespace Sys2Proof.Machine

/-- RESOLVE_SECTOR (R65 to R67). -/
def execResolveSector (s : State) : Host.Outcome State Fault Refusal := s.unlessHalted fun s => .next s.resolveSector

/-- COMMUTATE(t) (R69). -/
def execCommutate (t : Millis) (s : State) : Host.Outcome State Fault Refusal := s.unlessHalted fun s => .next (s.commutate t)

end Sys2Proof.Machine
end

