-- ==== Sys2Proof/Machine/Lifecycle.lean ====
section
/-! DEFINITION. The lifecycle commands INIT, START, STOP and LOCK (43_state_machine.md R81 to R85) and the RESET event (70_reset_and_hazards.md R122, R123). -/

namespace Sys2Proof.Machine

/-- INIT (R81). -/
def execInit (s : State) : Host.Outcome State Fault Refusal := s.unlessHalted State.initFromStraps

/-- START's writes before RESOLVE_SECTOR and COMMUTATE (R82). -/
def State.launch (s : State) : State :=
  { s with
    regs := { s.regs with
      state := .starting
      sector := 0
      dutyCycle := s.params.startDuty
      direction := s.regs.cmdDir
      startTime := s.now } }

/-- START (R82); in a state other than Stopped it is a no-op (R83). -/
def execStart (s : State) : Host.Outcome State Fault Refusal :=
  s.unlessHalted fun s =>
    if s.regs.state = .stopped then .next (s.launch.resolveSector.commutate s.now) else .next s

/-- STOP (R84). -/
def execStop (s : State) : Host.Outcome State Fault Refusal :=
  s.unlessHalted fun s =>
    let s := s.allDormant
    .next { s with regs := { s.regs with state := .stopped } }

/-- LOCK (R85). -/
def execLock (till : Millis) (s : State) : Host.Outcome State Fault Refusal :=
  s.unlessHalted fun s =>
    let s := State.allDormant { s with regs := { s.regs with lockUntilTime := till } }
    .next { s with regs := { s.regs with state := .locked } }

/-- RESET: the register reset values, then the INIT effect; taken even while `FAULT ≠ 0` (R122, R123). -/
def execReset (s : State) : Host.Outcome State Fault Refusal := s.resetRegisters.initFromStraps

end Sys2Proof.Machine
end

