-- ==== Sys2Proof/Machine/Sampler.lean ====
section
/-! DEFINITION. The SAMPLE dispatch (44_sample_dispatcher.md R88 to R96). -/

namespace Sys2Proof.Machine

/-- The refresh of the phase voltages, in every state (R89). -/
def State.refresh (s : State) (va vb vc : Volt) : State := { s with regs := { s.regs with v := ⟨va, vb, vc⟩ } }

/-- The Locked branch: lock expiry, which writes `state` only (R90). -/
def State.sampleLocked (s : State) : State :=
  if after s.params.timeCmp s.now s.regs.lockUntilTime then { s with regs := { s.regs with state := .stopped } } else s

/-- Whether a SAMPLE in Starting commutates: the zero crossing of the dormant phase `p`, or the watchdog (R92 to R94). -/
def State.commutesOn (s : State) (p : Phase) (vbus : Volt) : Bool :=
  zeroCross s.regs.sector (PerPhase.get s.regs.v p) (neutral vbus) ||
    watchdog s.params.timeCmp s.now s.regs.lastCommutationTime

/-- The Starting branch: the contract checks (R109), at most one COMMUTATE (R94), then `PROMOTE` (R95), which a fault
would have cut off (R110). -/
def State.sampleStarting (s : State) (vbus : Volt) : State :=
  if 5 < s.regs.sector.toNat then s.raiseFault faultSectorRange
  else
    match phaseOfCode s.regs.dsel with
    | none => s.raiseFault faultDselInvalid
    | some p =>
      let s := if s.commutesOn p vbus then s.commutate s.now else s
      if s.regs.fault = 0 then s.promoteCheck else s

/-- SAMPLE(va, vb, vc, vbus) (R88). -/
def execSample (va vb vc vbus : Volt) (s : State) : Host.Outcome State Fault Refusal :=
  s.unlessHalted fun s =>
    let s := s.refresh va vb vc
    match s.regs.state with
    | .locked => .next s.sampleLocked
    | .stopped => .next s
    | .running => .next s
    | .starting => .next (s.sampleStarting vbus)

end Sys2Proof.Machine
end

