-- ==== Sys2Proof/Machine/Dispatch.lean ====
section
/-! DEFINITION. One arm per constructor of Instr: the meaning of each operation. -/

namespace Sys2Proof.Machine

def exec (i : Instr) (s : State) : Host.Outcome State Fault Refusal :=
  match i with
  | .nop => Sys2Proof.Machine.execNop s
  | .init => Sys2Proof.Machine.execInit s
  | .start => Sys2Proof.Machine.execStart s
  | .stop => Sys2Proof.Machine.execStop s
  | .setDir dir => Sys2Proof.Machine.execSetDir dir s
  | .setDuty duty => Sys2Proof.Machine.execSetDuty duty s
  | .getState => Sys2Proof.Machine.execGetState s
  | .lock till => Sys2Proof.Machine.execLock till s
  | .reserved op arg => Sys2Proof.Machine.execReserved op arg s
  | .sample va vb vc vbus => Sys2Proof.Machine.execSample va vb vc vbus s
  | .reset => Sys2Proof.Machine.execReset s
  | .resolveSector => Sys2Proof.Machine.execResolveSector s
  | .commutate t => Sys2Proof.Machine.execCommutate t s

end Sys2Proof.Machine
end

