-- ==== Sys2Proof/Machine/Arbiter.lean ====
section
/-! DEFINITION. Sampling the inputs of a step and the arbiter (30_encoding.md R48, R57; 44_sample_dispatcher.md R97). -/

namespace Sys2Proof.Machine

/-- The frame of the next step: the first pending one, or a free value where none is known (R48; log entry 1). -/
def State.nextPorts (s : State) : Ports := s.pendingInputs.headD (Config.freePorts s.tick)

/-- The start of a step: every input is sampled once and the event list is empty (R60, R97, R129). -/
def State.beginStep (s : State) : State :=
  { s with ports := s.nextPorts, pendingInputs := s.pendingInputs.tail, tick := s.tick + 1, pwmEvents := [] }

/-- The operation of a sample event: its operands are the four ADC ports of the step (R57). -/
def sampleInstr (p : Ports) : Instr := .sample p.adcVa p.adcVb p.adcVc p.adcVbus

/-- The command of the step, if one is presented (R48, R53). -/
def State.runCommand (s : State) : Host.Outcome State Fault Refusal :=
  if s.ports.cmdValid then exec (decode s.ports.cmdWord) s else .next s

/-- The SAMPLE of the step, if one is presented; after a fault the step has ended (R97, R110). -/
def State.runSample (s : State) : Host.Outcome State Fault Refusal :=
  if s.regs.fault = 0 then (if s.ports.sampleValid then exec (sampleInstr s.ports) s else .next s) else .next s

/-- The arbiter: reset, else the fault halt, else the command and then the SAMPLE (R97, R113). -/
def State.arbitrate (s : State) : Host.Outcome State Fault Refusal :=
  if s.ports.rst then exec .reset s
  else if s.regs.fault = 0 then andThen s.runCommand State.runSample
  else .next s

/-- The frame that presents the command word `w`'s low `nbits` bits and no other event, its other inputs those of `p`. -/
def commandFrame (p : Ports) (nbits w : Nat) : Ports :=
  { p with rst := false, cmdValid := true, cmdWord := BitVec.ofNat 36 (w % 2 ^ nbits), sampleValid := false }

end Sys2Proof.Machine
end

