-- ==== Sys2Proof/Machine/Step.lean ====
section
/-! DEFINITION. One step of the block (30_encoding.md R48), and how a command is placed where the next step reads it. -/

namespace Sys2Proof.Machine

/-- One step: the inputs are sampled, then the arbiter runs (R48, R97). -/
def step (s : State) : Host.Outcome State Fault Refusal := s.beginStep.arbitrate

/-- `s` with the command word `w` presented in the next step, alone; the frame's other inputs are those already pending
for that step, or keep the values of the last step (R62). -/
def State.withFetchWord (s : State) (nbits w : Nat) : State :=
  { s with pendingInputs := commandFrame (s.pendingInputs.headD s.ports) nbits w :: s.pendingInputs.tail }

end Sys2Proof.Machine
end

