-- ==== Sys2Proof/Machine/Notation.lean ====
section
/-! DEFINITION. The step notation of 30_encoding.md R62 and R63 as data: a line names one step, and lines become the input frames of the coming steps. -/

namespace Sys2Proof.Machine

/-- One line of the notation (R62): `@now`, the inputs it sets, and a reset, or a command and a sample set, each if any. -/
structure StepLine where
  now : Millis
  /-- `hall=`; an omitted input keeps its value. -/
  hall : Option (BitVec 3) := none
  /-- `cfg=`, the sensor kind and the table number. -/
  cfg : Option (SensorKind × BitVec 4) := none
  /-- `RESET`, in place of a command and a sample. -/
  reset : Bool := false
  /-- The command; an operation without a command word presents none. -/
  command : Option Instr := none
  /-- `+ SAMPLE va,vb,vc,vbus`. -/
  sample : Option (PerPhase Volt × Volt) := none
deriving DecidableEq, Repr

/-- Every input 0: what the first line's omitted inputs are (R62). -/
def Ports.zero : Ports := { Ports.resetFrame with rst := false }

/-- The input frame a line presents after the frame `prev` (R62). -/
def StepLine.frame (prev : Ports) (l : StepLine) : Ports where
  rst := l.reset
  cmdValid := !l.reset && (l.command.bind encode).isSome
  cmdWord := (l.command.bind encode).getD prev.cmdWord
  sampleValid := !l.reset && l.sample.isSome
  adcVa := (l.sample.map fun x => x.1.a).getD prev.adcVa
  adcVb := (l.sample.map fun x => x.1.b).getD prev.adcVb
  adcVc := (l.sample.map fun x => x.1.c).getD prev.adcVc
  adcVbus := (l.sample.map fun x => x.2).getD prev.adcVbus
  hallIn := l.hall.getD prev.hallIn
  nowMs := l.now
  cfgSensorKind := (l.cfg.map fun x => sensorKindCode x.1).getD prev.cfgSensorKind
  cfgHallSel := (l.cfg.map fun x => x.2).getD prev.cfgHallSel

/-- The frames of a list of lines, each after the one before it (R62). -/
def frames : Ports → List StepLine → List Ports
  | _, [] => []
  | prev, l :: rest => l.frame prev :: frames (l.frame prev) rest

/-- The pseudo-instruction `START FWD` or `START REV`: two steps at the same `now` (R63). -/
def startToward (d : Direction) (now : Millis) : List StepLine :=
  [{ now := now, command := some (.setDir d) }, { now := now, command := some .start }]

/-- The pseudo-instruction `IDLE`: a step with no command and no sample (R63). -/
def idleLine (now : Millis) : List StepLine := [{ now := now }]

end Sys2Proof.Machine
end

