-- ==== Sys2Proof/Safety.lean ====
section
/-! DEFINITION. What counts as a safe state, an allowed change of state and a frame, in the terms the statements use (10_state.md R31 and section 6; 42_commutation.md R69 to R75; 43_state_machine.md R78 to R80). The expected outputs are written here from the rules, apart from the definitions the meanings use. -/

namespace Sys2Proof.Machine

/-- All three phases at (Dormant, 0). -/
abbrev dormantPwm : PerPhase PwmOut := ⟨⟨.dormant, 0⟩, ⟨.dormant, 0⟩, ⟨.dormant, 0⟩⟩

/-- The three dormant writes, A then B then C (R81, R84, R85, R110). -/
abbrev dormantEvents : List PwmEvent := [⟨.a, .dormant, 0⟩, ⟨.b, .dormant, 0⟩, ⟨.c, .dormant, 0⟩]

/-- The high-side duty of R72 as an exact number. -/
abbrev highDuty (d : Duty) : Duty := BitVec.ofNat 16 (32767 + d.toNat / 2)

/-- The low-side duty of R72 as an exact number. -/
abbrev lowDuty (d : Duty) : Duty := BitVec.ofNat 16 (32767 - d.toNat / 2)

/-- The PWM output a phase shows after a commutation into a row at duty `d` (R73). -/
def drivenOutput (row : PhaseRow) (d : Duty) (p : Phase) : PwmOut :=
  if p = row.dorm then ⟨.dormant, d⟩ else if p = row.hi then ⟨.driven, highDuty d⟩ else ⟨.driven, lowDuty d⟩

/-- The three PWM writes of a commutation, in their order (R73). -/
abbrev commutationEvents (row : PhaseRow) (d : Duty) : List PwmEvent :=
  [⟨row.dorm, .dormant, d⟩, ⟨row.hi, .driven, highDuty d⟩, ⟨row.lo, .driven, lowDuty d⟩]

/-- The state after a commutation of `s` into sector `k` at time `t` (R70 to R75). -/
def State.afterCommutation (s : State) (k : Fin 6) (t : Millis) : State :=
  let row := romPhase s.params.phaseTable k
  let d := s.regs.dutyCycle
  { s with
    regs := { s.regs with
      sector := BitVec.ofNat 3 k.val
      pwm := ⟨drivenOutput row d .a, drivenOutput row d .b, drivenOutput row d .c⟩
      dsel := phaseCode row.dorm
      lastCommutationTime := if s.regs.state = .starting then t else s.regs.lastCommutationTime }
    pwmEvents := s.pwmEvents ++ commutationEvents row d }

/-- The sector after `n` in a direction: up by one or down by one, modulo 6 (R70). -/
def sectorAfter (d : Direction) (n : Nat) : Fin 6 :=
  match d with
  | .forward => Fin.ofNat 6 (n + 1)
  | .reverse => Fin.ofNat 6 (n + 5)

/-- Whether the PROMOTE parameter holds on registers and inputs (R86): never, always, or the designed predicate. -/
def promotes (p : Promote) (r : Regs) (q : Ports) : Bool :=
  match p with
  | .never => false
  | .always => true
  | .designed => Config.promote r q

/-- The motor is being driven: Starting or Running. -/
abbrev Driving (r : Regs) : Prop := r.state = .starting ∨ r.state = .running

/-- The block's invariant: R31 with `FAULT = 0`, the legal `HDT` entries of R25, and the dormant outputs of R78. -/
structure State.Inv (s : State) : Prop where
  /-- R29, R31: no contract violation has been recorded. -/
  noFault : s.regs.fault = 0
  /-- R31, first invariant. -/
  sectorLegal : s.regs.sector.toNat ≤ 5
  /-- R31, second invariant. -/
  dselLegal : s.regs.dsel ≠ 3
  /-- R31, third invariant. -/
  dselResolved : Driving s.regs →
    ∀ k : Fin 6, sectorBits k = s.regs.sector → s.regs.dsel = phaseCode (romPhase s.params.phaseTable k).dorm
  /-- R25: an entry of the copy is 0 to 6. -/
  hdtLegal : ∀ c : HallCode, hallEntry s.regs.hdt c ≠ 7
  /-- R78: no actuation in Stopped or Locked. -/
  dormantAtRest : ¬ Driving s.regs → s.regs.pwm = dormantPwm

/-- The edges of `state` that the operation `i` may take from `s` (R79); to stay is no edge. -/
def EdgeAllowed (i : Instr) (s : State) (dest : MotorState) : Prop :=
  match i with
  | .start => s.regs.state = .stopped ∧ dest = .starting
  | .stop | .init | .reset => dest = .stopped
  | .lock _ => dest = .locked
  | .sample _ _ _ _ =>
    (s.regs.state = .locked ∧ after s.params.timeCmp s.now s.regs.lockUntilTime = true ∧ dest = .stopped) ∨
      (s.regs.state = .starting ∧ s.params.promote ≠ .never ∧ dest = .running)
  | .nop | .setDir _ | .setDuty _ | .getState | .reserved _ _ | .resolveSector | .commutate _ => False

/-- The frame of each operation: `t` differs from `s` at most in what 10_state.md's summary table says the operation
writes, and in the event list where it may write a PWM output. -/
def FrameHolds (i : Instr) (s t : State) : Prop :=
  match i with
  | .nop | .reserved _ _ => t = s
  | .setDir _ => t = { s with regs := { s.regs with cmdDir := t.regs.cmdDir } }
  | .setDuty _ => t = { s with regs := { s.regs with cmdDuty := t.regs.cmdDuty } }
  | .getState => t = { s with regs := { s.regs with rsp := t.regs.rsp } }
  | .resolveSector => t = { s with regs := { s.regs with sector := t.regs.sector } }
  | .stop => t = { s with regs := { s.regs with state := t.regs.state, pwm := t.regs.pwm }, pwmEvents := t.pwmEvents }
  | .lock _ =>
    t = { s with
      regs := { s.regs with state := t.regs.state, lockUntilTime := t.regs.lockUntilTime, pwm := t.regs.pwm }
      pwmEvents := t.pwmEvents }
  | .init =>
    t = { s with
      regs := { s.regs with
        state := t.regs.state
        sector := t.regs.sector
        sk := t.regs.sk
        hdt := t.regs.hdt
        pwm := t.regs.pwm }
      pwmEvents := t.pwmEvents }
  | .start =>
    t = { s with
      regs := { s.regs with
        state := t.regs.state
        sector := t.regs.sector
        dutyCycle := t.regs.dutyCycle
        direction := t.regs.direction
        startTime := t.regs.startTime
        lastCommutationTime := t.regs.lastCommutationTime
        dsel := t.regs.dsel
        pwm := t.regs.pwm
        fault := t.regs.fault }
      pwmEvents := t.pwmEvents }
  | .commutate _ =>
    t = { s with
      regs := { s.regs with
        sector := t.regs.sector
        lastCommutationTime := t.regs.lastCommutationTime
        dsel := t.regs.dsel
        pwm := t.regs.pwm
        fault := t.regs.fault }
      pwmEvents := t.pwmEvents }
  | .sample _ _ _ _ =>
    t = { s with
      regs := { s.regs with
        state := t.regs.state
        sector := t.regs.sector
        lastCommutationTime := t.regs.lastCommutationTime
        v := t.regs.v
        dsel := t.regs.dsel
        pwm := t.regs.pwm
        fault := t.regs.fault }
      pwmEvents := t.pwmEvents }
  | .reset => t = { s with regs := t.regs, pwmEvents := t.pwmEvents }

/-- An operation `n` times in a row. -/
def execTimes (i : Instr) : Nat → State → Host.Outcome State Fault Refusal
  | 0, s => .next s
  | n + 1, s => andThen (exec i s) (execTimes i n)

end Sys2Proof.Machine
end

