-- ==== Sys2Proof/Certificates/Slice0/Obligations.lean ====
section
/-! DEFINITION. The statements for the provers, from the numbered rules of spec/: encoding, the step and its arbiter, each operation's result and frame, and the rules of the whole machine. -/

open Sys2Proof Sys2Proof.Machine

/-! ## Encoding -/

/-- The round trip: decoding the command word of a well-formed operation gives the operation back, at every operand
value (R52 to R54). The commands are exactly the operations that have a command word. -/
def Obligations.DecodeOfEncodeIsTheInstruction : Prop :=
  (∀ (i : Instr) (w : CmdWord), i.wellFormed = true → encode i = some w → decode w = i) ∧
    ∀ i : Instr, encode i = none ↔
      (∃ va vb vc vbus, i = .sample va vb vc vbus) ∨ i = .reset ∨ i = .resolveSector ∨ ∃ t, i = .commutate t

/-- The opcode map (R53) with its operands (R54), on every 36-bit word, in plain arithmetic on the word's number. -/
def Obligations.EveryWordSelectsItsOpcodeRow : Prop :=
  ∀ w : CmdWord,
    (w.toNat % 16 = 0 → decode w = .nop) ∧
    (w.toNat % 16 = 1 → decode w = .init) ∧
    (w.toNat % 16 = 2 → decode w = .start) ∧
    (w.toNat % 16 = 3 → decode w = .stop) ∧
    (w.toNat % 16 = 4 → decode w = .setDir (if w.toNat / 16 % 2 = 1 then .reverse else .forward)) ∧
    (w.toNat % 16 = 5 → decode w = .setDuty (BitVec.ofNat 16 (w.toNat / 16 % 2 ^ 16))) ∧
    (w.toNat % 16 = 6 → decode w = .getState) ∧
    (w.toNat % 16 = 7 → decode w = .lock (BitVec.ofNat 32 (w.toNat / 16))) ∧
    (8 ≤ w.toNat % 16 → decode w = .reserved (BitVec.ofNat 4 (w.toNat % 16)) (BitVec.ofNat 32 (w.toNat / 16)))

/-- Unused argument bits are ignored (R55): words with the same opcode and the same used bits decode alike. -/
def Obligations.UnusedArgumentBitsAreIgnored : Prop :=
  ∀ w x : CmdWord, opField w = opField x →
    ((opField w).toNat = 4 → w.getLsbD 4 = x.getLsbD 4 → decode w = decode x) ∧
    ((opField w).toNat = 5 → (∀ k, 4 ≤ k → k < 20 → w.getLsbD k = x.getLsbD k) → decode w = decode x) ∧
    (((opField w).toNat ≤ 3 ∨ (opField w).toNat = 6) → decode w = decode x)

/-- Every word decodes to a well-formed operation, and encoding that gives a word of the same opcode that decodes to it. -/
def Obligations.EveryDecodedWordIsWellFormed : Prop :=
  ∀ w : CmdWord, (decode w).wellFormed = true ∧
    ∃ x : CmdWord, encode (decode w) = some x ∧ opField x = opField w ∧ decode x = decode w

/-- Sanity: some words of R64 and of the vectors V-E13 to V-E16, written out, decode to what they stand for. -/
def Obligations.SpelledWordsDecode : Prop :=
  decode 0x000000014 = .setDir .reverse ∧ decode 0x0000FFFF5 = .setDuty 0xFFFF ∧ decode 0xFFFFFFFF7 = .lock 0xFFFFFFFF ∧
    decode 0xABCD12345 = .setDuty 0x1234 ∧ decode 0x123456782 = .start ∧ decode 0x00000000A = .reserved 0xA 0

/-! ## The step -/

/-- A step runs the fetched command: with the word placed for the next step, the step is `exec` of what it decodes to, at
the state in which the inputs of the step have been sampled, and nothing else. -/
def Obligations.StepRunsTheFetchedCommand : Prop :=
  ∀ (s : State) (nbits w : Nat) (i : Instr), s.regs.fault = 0 → decodeTableWord nbits w = some i →
    step (s.withFetchWord nbits w) = exec i (s.withFetchWord nbits w).beginStep ∧
    (s.withFetchWord nbits w).beginStep =
      { s with
        ports := { s.pendingInputs.headD s.ports with
          rst := false
          cmdValid := true
          cmdWord := BitVec.ofNat 36 (w % 2 ^ nbits)
          sampleValid := false }
        pendingInputs := s.pendingInputs.tail
        tick := s.tick + 1
        pwmEvents := [] }

/-- The arbiter (R97): reset pre-empts, a halted block does nothing, otherwise the command runs and then the SAMPLE,
unless the command raised a fault; the events of the step start empty. -/
def Obligations.StepIsTheArbiter : Prop :=
  ∀ (s : State) (p : Ports) (rest : List Ports),
    let b : State := { s with ports := p, pendingInputs := rest, tick := s.tick + 1, pwmEvents := [] }
    let sample : Instr := .sample p.adcVa p.adcVb p.adcVc p.adcVbus
    let next := step { s with pendingInputs := p :: rest }
    (p.rst = true → next = exec .reset b) ∧
    (p.rst = false → s.regs.fault ≠ 0 → next = .next b) ∧
    (p.rst = false → s.regs.fault = 0 → p.cmdValid = false → p.sampleValid = false → next = .next b) ∧
    (p.rst = false → s.regs.fault = 0 → p.cmdValid = false → p.sampleValid = true → next = exec sample b) ∧
    (p.rst = false → s.regs.fault = 0 → p.cmdValid = true → p.sampleValid = false → next = exec (decode p.cmdWord) b) ∧
    (p.rst = false → s.regs.fault = 0 → p.cmdValid = true → p.sampleValid = true →
      (∀ u, exec (decode p.cmdWord) b = .next u →
        (u.regs.fault = 0 → next = exec sample u) ∧ (u.regs.fault ≠ 0 → next = .next u)) ∧
      (∀ r, exec (decode p.cmdWord) b = .refused r → next = .refused r))

/-- A step with neither reset nor command nor sample changes no register and makes no event, whatever the clock shows
(R48, R127). -/
def Obligations.IdleStepChangesNothing : Prop :=
  ∀ s : State, s.nextPorts.rst = false → s.nextPorts.cmdValid = false → s.nextPorts.sampleValid = false →
    ∃ t, step s = .next t ∧ t.regs = s.regs ∧ t.pwmEvents = [] ∧ t.params = s.params

/-- The halt (R111): while `FAULT ≠ 0` a step without reset does nothing, and every operation but reset is a no-op. -/
def Obligations.HaltedBlockDoesNothing : Prop :=
  ∀ s : State, s.regs.fault ≠ 0 →
    (∀ i : Instr, i ≠ .reset → exec i s = .next s) ∧
    (s.nextPorts.rst = false →
      ∃ t, step s = .next t ∧ t.regs = s.regs ∧ t.pwmEvents = [] ∧
        t.outputs.stateOut = s.outputs.stateOut ∧ t.outputs.faultOut = s.outputs.faultOut) ∧
    (∀ t, step s = .next t → t.regs.fault = 0 → s.nextPorts.rst = true)

/-- A step always goes on, but for the two refusals the spec names: a selection 12 to 15 sampled by reset or INIT, and a
reserved opcode under REFUSE (R38, R102); that the first comes in the step that samples the selection is log entry 8. -/
def Obligations.StepsGoOnButForNamedRefusals : Prop :=
  ∀ s : State,
    (∃ t, step s = .next t) ∨
    (step s = .refused (.hallSelect s.nextPorts.cfgHallSel) ∧ 12 ≤ s.nextPorts.cfgHallSel.toNat ∧
      (s.nextPorts.rst = true ∨ (s.nextPorts.cmdValid = true ∧ (opField s.nextPorts.cmdWord).toNat = 1))) ∨
    (step s = .refused (.reservedOpcode (opField s.nextPorts.cmdWord)) ∧ s.params.reservedOp = .refuse ∧
      s.nextPorts.cmdValid = true ∧ 8 ≤ (opField s.nextPorts.cmdWord).toNat)

/-! ## The commands that change no motor state -/

/-- NOP (R98): it changes nothing, every word of opcode 0 is one, and a NOP beside a sample leaves what the sample alone leaves.
A designed PROMOTE could read `cmd_valid` itself, so it is left out of the last clause. -/
def Obligations.NopIsIdle : Prop :=
  (∀ s : State, s.regs.fault = 0 → exec .nop s = .next s) ∧
    (∀ w : CmdWord, (opField w).toNat = 0 → decode w = .nop) ∧
    ∀ (s : State) (p : Ports) (rest : List Ports), s.params.promote ≠ .designed → p.rst = false →
      p.cmdValid = true → (opField p.cmdWord).toNat = 0 →
      ∃ t u, step { s with pendingInputs := p :: rest } = .next t ∧
        step { s with pendingInputs := { p with cmdValid := false } :: rest } = .next u ∧
        t.regs = u.regs ∧ t.pwmEvents = u.pwmEvents

/-- SET_DIR (R99): from every state, each word of opcode 4 writes `cmd_word[4]` to `CMD_DIR` and nothing else. -/
def Obligations.SetDirWritesCmdDir : Prop :=
  ∀ (s : State), s.regs.fault = 0 →
    (∀ d, exec (.setDir d) s = .next { s with regs := { s.regs with cmdDir := d } }) ∧
    ∀ w : CmdWord, (opField w).toNat = 4 →
      exec (decode w) s =
        .next { s with regs := { s.regs with cmdDir := if w.getLsbD 4 = true then .reverse else .forward } }

/-- SET_DUTY (R100): from every state, each word of opcode 5 writes `cmd_word[19:4]` to `CMD_DUTY` and nothing else. -/
def Obligations.SetDutyWritesCmdDuty : Prop :=
  ∀ (s : State), s.regs.fault = 0 →
    (∀ d, exec (.setDuty d) s = .next { s with regs := { s.regs with cmdDuty := d } }) ∧
    ∀ w : CmdWord, (opField w).toNat = 5 →
      exec (decode w) s = .next { s with regs := { s.regs with cmdDuty := BitVec.ofNat 16 (w.toNat / 16) } }

/-- GET_STATE (R101): it copies `state` to `RSP` and changes nothing else, each word of opcode 6 is one, and in a step
that also carries a SAMPLE, `RSP` holds the state before the SAMPLE, shown on `rsp_state` as 0, 1, 2 or 3 (V-Q4). -/
def Obligations.GetStateAnswersTheState : Prop :=
  (∀ s : State, s.regs.fault = 0 →
    exec .getState s = .next { s with regs := { s.regs with rsp := s.regs.state } }) ∧
    (∀ w : CmdWord, (opField w).toNat = 6 → decode w = .getState) ∧
    ∀ s : State, s.regs.fault = 0 → s.nextPorts.rst = false → s.nextPorts.cmdValid = true →
      (opField s.nextPorts.cmdWord).toNat = 6 →
      ∃ t, step s = .next t ∧ t.regs.rsp = s.regs.state ∧ t.outputs.rspState = s.outputs.stateOut ∧
        (s.regs.state = .stopped → t.outputs.rspState = 0) ∧ (s.regs.state = .starting → t.outputs.rspState = 1) ∧
        (s.regs.state = .running → t.outputs.rspState = 2) ∧ (s.regs.state = .locked → t.outputs.rspState = 3)

/-- The reserved opcodes (R102): under NOP nothing changes and a SAMPLE of the same step still runs; under REFUSE the
run is refused. -/
def Obligations.ReservedOpcodesFollowThePolicy : Prop :=
  (∀ w : CmdWord, w.getLsbD 3 = true ↔ ∃ op arg, decode w = .reserved op arg) ∧
    (∀ (s : State) (op : Opcode) (arg : Arg), s.regs.fault = 0 →
      (s.params.reservedOp = .nop → exec (.reserved op arg) s = .next s) ∧
      (s.params.reservedOp = .refuse → exec (.reserved op arg) s = .refused (.reservedOpcode op))) ∧
    ∀ (s : State), s.regs.fault = 0 → s.params.reservedOp = .nop → s.nextPorts.rst = false →
      s.nextPorts.cmdValid = true → s.nextPorts.cmdWord.getLsbD 3 = true → s.nextPorts.sampleValid = true →
      step s = exec (.sample s.nextPorts.adcVa s.nextPorts.adcVb s.nextPorts.adcVc s.nextPorts.adcVbus) s.beginStep

/-! ## The output ports and the field encodings -/

/-- The output ports (R50) in every state: `state_out` and `rsp_state` are 0 to 3 for Stopped, Starting, Running and
Locked, each `pwm_mode` 0 for Dormant and 1 for Driven (R59), and the others show their registers. -/
def Obligations.OutputPortsShowTheirRegisters : Prop :=
  ∀ s : State,
    let code (x : MotorState) : BitVec 2 := match x with | .stopped => 0 | .starting => 1 | .running => 2 | .locked => 3
    let bit (x : PwmMode) : BitVec 1 := match x with | .dormant => 0 | .driven => 1
    s.outputs.stateOut = code s.regs.state ∧ s.outputs.rspState = code s.regs.rsp ∧
      s.outputs.pwmMode.a = bit s.regs.pwm.a.mode ∧ s.outputs.pwmDuty.a = s.regs.pwm.a.duty ∧
      s.outputs.pwmMode.b = bit s.regs.pwm.b.mode ∧ s.outputs.pwmDuty.b = s.regs.pwm.b.duty ∧
      s.outputs.pwmMode.c = bit s.regs.pwm.c.mode ∧ s.outputs.pwmDuty.c = s.regs.pwm.c.duty ∧
      s.outputs.pwmEvents = s.pwmEvents ∧ s.outputs.faultOut = s.regs.fault

/-- The field encodings (R59), and that the decoder, the straps and the selector read them back. -/
def Obligations.FieldEncodingsAreThoseListed : Prop :=
  [MotorState.stopped, .starting, .running, .locked].map stateCode = [0, 1, 2, 3] ∧
    dirBit .forward = 0 ∧ dirBit .reverse = 1 ∧ dirOperand 0 = .forward ∧ dirOperand 1 = .reverse ∧
    [Phase.a, .b, .c].map phaseCode = [0, 1, 2] ∧
    ([0, 1, 2, 3] : List PhaseCode).map phaseOfCode = [some .a, some .b, some .c, none] ∧
    modeCode .dormant = 0 ∧ modeCode .driven = 1 ∧
    sensorKindCode .sensorless = 0 ∧ sensorKindCode .hall = 1 ∧
    sensorKindOfCode 0 = .sensorless ∧ sensorKindOfCode 1 = .hall ∧
    State.reset.regs.fault = 0 ∧ faultSectorRange = 1 ∧ faultDselInvalid = 2 ∧
    (∀ k : Fin 6, (sectorBits k).toNat = k.val) ∧
    (∀ (t : HallTable) (c : Fin 6),
      (hallEntry (hallEntriesOf t) (BitVec.ofNat 3 (c.val + 1))).toNat = (t.codes[c]).val) ∧
    ∀ t : HallTable, (hallEntry (hallEntriesOf t) 0).toNat = 6 ∧ (hallEntry (hallEntriesOf t) 7).toNat = 6

/-! ## The lifecycle commands and reset -/

/-- INIT (R81) with a selectable table: dormant outputs, Stopped, the straps loaded, the sector 0 or Hall-resolved, and
everything else as it was. -/
def Obligations.InitResult : Prop :=
  ∀ (s : State) (table : HallEntries), s.regs.fault = 0 → hallTables s.params s.ports.cfgHallSel = some table →
    exec .init s =
      .next { s with
        regs := { s.regs with
          state := .stopped
          sk := if s.ports.cfgSensorKind = 1 then .hall else .sensorless
          hdt := table
          sector :=
            if s.ports.cfgSensorKind = 1 ∧ hallEntry table s.ports.hallIn ≠ 6 then hallEntry table s.ports.hallIn
            else 0
          pwm := dormantPwm }
        pwmEvents := s.pwmEvents ++ dormantEvents }

/-- START from Stopped (R82): Starting, the OPEN startup duty, the commanded direction, both times Now, and one
commutation from sector 0 or the Hall-resolved sector; all else as it was. -/
def Obligations.StartFromStopped : Prop :=
  ∀ (s : State) (n : Nat), s.regs.fault = 0 → s.regs.state = .stopped → n ≤ 5 →
    n = (if s.regs.sk = .hall ∧ hallEntry s.regs.hdt s.ports.hallIn ≠ 6 then (hallEntry s.regs.hdt s.ports.hallIn).toNat
      else 0) →
    let k := sectorAfter s.regs.cmdDir n
    let row := romPhase s.params.phaseTable k
    let d := s.params.startDuty
    exec .start s =
      .next { s with
        regs := { s.regs with
          state := .starting
          sector := BitVec.ofNat 3 k.val
          dutyCycle := d
          direction := s.regs.cmdDir
          startTime := s.ports.nowMs
          lastCommutationTime := s.ports.nowMs
          dsel := phaseCode row.dorm
          pwm := ⟨drivenOutput row d .a, drivenOutput row d .b, drivenOutput row d .c⟩ }
        pwmEvents := s.pwmEvents ++ commutationEvents row d }

/-- The pseudo-instructions START FWD and START REV (R63; R99, its example): on a sensorless block in Stopped their two
steps latch the direction and drive sector 1 or 5, with both times the line's `now`. -/
def Obligations.StartTowardLatchesTheDirection : Prop :=
  ∀ (s : State) (prev : Ports) (d : Direction) (now : Millis),
    s.regs.fault = 0 → s.regs.state = .stopped → s.regs.sk = .sensorless →
    ∃ u t, step { s with pendingInputs := frames prev (startToward d now) } = .next u ∧ step u = .next t ∧
      t.regs.state = .starting ∧ t.regs.cmdDir = d ∧ t.regs.direction = d ∧
      t.regs.sector = (match d with | .forward => 1 | .reverse => 5) ∧
      t.regs.startTime = now ∧ t.regs.lastCommutationTime = now

/-- START in a state other than Stopped writes no register and makes no event (R83). -/
def Obligations.StartElsewhereIsIgnored : Prop :=
  ∀ s : State, s.regs.fault = 0 → s.regs.state ≠ .stopped → exec .start s = .next s

/-- STOP (R84) from every state: dormant outputs by three writes in the order A, B, C, Stopped, all else as it was; a
second STOP changes no register. -/
def Obligations.StopIsTotalAndIdempotent : Prop :=
  ∀ s : State, s.regs.fault = 0 →
    exec .stop s =
      .next { s with
        regs := { s.regs with state := .stopped, pwm := dormantPwm }
        pwmEvents := s.pwmEvents ++ dormantEvents } ∧
    (∀ w : CmdWord, (opField w).toNat = 3 → decode w = .stop) ∧
    ∃ t u, exec .stop s = .next t ∧ exec .stop t = .next u ∧ u.regs = t.regs

/-- LOCK (R85) from every state: the lockout's end from `cmd_word[35:4]`, dormant outputs, Locked, all else as it was. -/
def Obligations.LockEntersLocked : Prop :=
  ∀ s : State, s.regs.fault = 0 →
    (∀ till : Millis,
      exec (.lock till) s =
        .next { s with
          regs := { s.regs with state := .locked, lockUntilTime := till, pwm := dormantPwm }
          pwmEvents := s.pwmEvents ++ dormantEvents }) ∧
    ∀ w : CmdWord, (opField w).toNat = 7 → decode w = .lock (BitVec.ofNat 32 (w.toNat / 16))

/-- Reset (R122, R123) from every state, halted or not: every register at its reset value, then the INIT effect on the
straps; only the parameters and the model's inputs stay. -/
def Obligations.ResetResult : Prop :=
  ∀ (s : State) (table : HallEntries), hallTables s.params s.ports.cfgHallSel = some table →
    exec .reset s =
      .next { s with
        regs :=
          { state := .stopped
            sector :=
              if s.ports.cfgSensorKind = 1 ∧ hallEntry table s.ports.hallIn ≠ 6 then hallEntry table s.ports.hallIn
              else 0
            dutyCycle := 0
            direction := .forward
            startTime := 0
            lastCommutationTime := 0
            lockUntilTime := 0
            v := ⟨0, 0, 0⟩
            dsel := phaseCode (romPhase s.params.phaseTable 0).dorm
            sk := if s.ports.cfgSensorKind = 1 then .hall else .sensorless
            hdt := table
            cmdDir := .forward
            cmdDuty := 0
            pwm := dormantPwm
            fault := 0
            rsp := .stopped }
        pwmEvents := s.pwmEvents ++ dormantEvents }

/-- The state `State.reset` is what a reset step leaves when every other input of the step is 0, from whatever state the
block was in; that the straps are 0 is the model's choice (log entry 3). -/
def Obligations.ResetStepReachesTheResetState : Prop :=
  ∀ (s : State) (rest : List Ports),
    step { s with pendingInputs := Ports.resetFrame :: rest } =
      .next { State.resetWith s.params with pendingInputs := rest, tick := s.tick + 1 }

/-- `HALL_TABLES` (R36 to R38): table 0 is the source's; tables 1 to 11 are the parameter's; 12 to 15 select none; every
table has 6 at the codes 0 and 7 and nowhere a 7. -/
def Obligations.HallTablesHoldTheSentinel : Prop :=
  ∀ (p : Params) (sel : BitVec 4),
    (sel.toNat = 0 → hallTables p sel = some #v[6, 1, 3, 2, 5, 0, 4, 6]) ∧
    (∀ n : Fin 11, sel.toNat = n.val + 1 →
      ∃ t, hallTables p sel = some t ∧
        ∀ c : Fin 6, hallEntry t (BitVec.ofNat 3 (c.val + 1)) = BitVec.ofNat 3 (p.hallTables[n].codes[c]).val) ∧
    (12 ≤ sel.toNat ↔ hallTables p sel = none) ∧
    (∀ t, hallTables p sel = some t →
      hallEntry t 0 = 6 ∧ hallEntry t 7 = 6 ∧ ∀ c, (hallEntry t c).toNat ≤ 6)

/-- A selection of 12 to 15 refuses the configuration at INIT and at reset (R38); that the refusal comes in the step that
samples it is log entry 8 (DEDUCED). -/
def Obligations.BadSelectionIsRefused : Prop :=
  ∀ s : State, 12 ≤ s.ports.cfgHallSel.toNat →
    exec .reset s = .refused (.hallSelect s.ports.cfgHallSel) ∧
    (s.regs.fault = 0 → exec .init s = .refused (.hallSelect s.ports.cfgHallSel))

/-! ## The position sensor and the commutation engine -/

/-- RESOLVE_SECTOR (R65, R66): with a Hall sensor the table's entry for the code, 0 to 5, becomes the sector; on an entry
6, and sensorless, nothing is written. -/
def Obligations.ResolveSectorResult : Prop :=
  ∀ s : State, s.regs.fault = 0 →
    (s.regs.sk = .hall → (hallEntry s.regs.hdt s.ports.hallIn).toNat ≤ 5 →
      exec .resolveSector s = .next { s with regs := { s.regs with sector := hallEntry s.regs.hdt s.ports.hallIn } }) ∧
    (s.regs.sk = .hall → hallEntry s.regs.hdt s.ports.hallIn = 6 → exec .resolveSector s = .next s) ∧
    (s.regs.sk = .sensorless → exec .resolveSector s = .next s)

/-- An `HDT` entry 7, which only a handed-in state holds: the model writes it to the sector (log entry 11, DEDUCED), so a
START that resolves it ends in the fault SECTOR_RANGE (R109), a next state (log entry 9), with START's earlier writes
standing (R110). -/
def Obligations.HandedInSevenIsWrittenToTheSector : Prop :=
  ∀ s : State, s.regs.fault = 0 → s.regs.sk = .hall → hallEntry s.regs.hdt s.ports.hallIn = 7 →
    exec .resolveSector s = .next { s with regs := { s.regs with sector := 7 } } ∧
    (s.regs.state = .stopped →
      exec .start s =
        .next { s with
          regs := { s.regs with
            state := .starting
            sector := 7
            dutyCycle := s.params.startDuty
            direction := s.regs.cmdDir
            startTime := s.ports.nowMs
            fault := 1
            pwm := dormantPwm }
          pwmEvents := s.pwmEvents ++ dormantEvents })

/-- After any INIT, the Hall codes 0 and 7 are silently ignored, whichever of the twelve tables was loaded (R67; the
source's property V-S6). -/
def Obligations.InvalidHallCodesAreIgnoredAfterInit : Prop :=
  ∀ s t : State, s.regs.fault = 0 → exec .init s = .next t →
    ∀ q : Ports, q.hallIn = 0 ∨ q.hallIn = 7 →
      exec .resolveSector { t with ports := q } = .next { t with ports := q }

/-- COMMUTATE (R70 to R75) in Starting and Running from a legal sector: the next sector, its row's roles, the three PWM
writes in order, `DSEL`, and the time in Starting only; all else as it was. -/
def Obligations.CommutateResult : Prop :=
  ∀ (s : State) (t : Millis), s.regs.fault = 0 → Driving s.regs → s.regs.sector.toNat ≤ 5 →
    exec (.commutate t) s = .next (s.afterCommutation (sectorAfter s.regs.direction s.regs.sector.toNat) t)

/-- COMMUTATE run alone in Stopped or Locked, where R69's precondition does not hold and no rule calls it: the model gives
it the pseudocode's effect all the same (log entry 10, DESIGN CHOICE), without a time record. -/
def Obligations.CommutateOutsideItsPrecondition : Prop :=
  ∀ (s : State) (t : Millis), s.regs.fault = 0 → ¬ Driving s.regs → s.regs.sector.toNat ≤ 5 →
    ∃ u, exec (.commutate t) s = .next u ∧
      u = s.afterCommutation (sectorAfter s.regs.direction s.regs.sector.toNat) t ∧
      u.regs.lastCommutationTime = s.regs.lastCommutationTime

/-- Six commutations return to the sector, and no fewer do (R76, law 1; R35, fourth constraint); that COMMUTATE runs in
Stopped and Locked too, outside R69's precondition, is log entry 10 (DESIGN CHOICE). -/
def Obligations.SixCommutationsAreOneRevolution : Prop :=
  ∀ (s : State) (t : Millis), s.regs.fault = 0 → s.regs.sector.toNat ≤ 5 →
    (∃ u, execTimes (.commutate t) 6 s = .next u ∧ u.regs.sector = s.regs.sector ∧
      u.regs.direction = s.regs.direction) ∧
    ∀ n u, 0 < n → n < 6 → execTimes (.commutate t) n s = .next u → u.regs.sector ≠ s.regs.sector

/-- The duty laws (R76, laws 2 to 5) of the mapper the meanings use. -/
def Obligations.DutySplitLaws : Prop :=
  ∀ d : Duty,
    (highSideDuty d).toNat = (lowSideDuty d).toNat + 2 * (d.toNat / 2) ∧
    (highSideDuty d).toNat + (lowSideDuty d).toNat = 65534 ∧
    32767 ≤ (highSideDuty d).toNat ∧ (highSideDuty d).toNat ≤ 65534 ∧ (lowSideDuty d).toNat ≤ 32767 ∧
    (d.toNat ≤ 1 → (highSideDuty d).toNat = 32767 ∧ (lowSideDuty d).toNat = 32767)

/-- The phase tables: CANONICAL and PARITY_MATCHED have the rows R34 lists for the sectors 0 to 5, as (hi, lo, dorm), and
exactly these two meet the four constraints of R35. -/
def Obligations.ExactlyTwoPhaseTablesAreAdmitted : Prop :=
  (List.finRange 6).map (romPhase .canonical) =
      [⟨.a, .b, .c⟩, ⟨.a, .c, .b⟩, ⟨.b, .c, .a⟩, ⟨.b, .a, .c⟩, ⟨.c, .a, .b⟩, ⟨.c, .b, .a⟩] ∧
    (List.finRange 6).map (romPhase .parityMatched) =
      [⟨.a, .b, .c⟩, ⟨.c, .b, .a⟩, ⟨.c, .a, .b⟩, ⟨.b, .a, .c⟩, ⟨.b, .c, .a⟩, ⟨.a, .c, .b⟩] ∧
    rawPhaseTable .canonical = #v[⟨0, 1, 2⟩, ⟨0, 2, 1⟩, ⟨1, 2, 0⟩, ⟨1, 0, 2⟩, ⟨2, 0, 1⟩, ⟨2, 1, 0⟩] ∧
    rawPhaseTable .parityMatched = #v[⟨0, 1, 2⟩, ⟨2, 1, 0⟩, ⟨2, 0, 1⟩, ⟨1, 0, 2⟩, ⟨1, 2, 0⟩, ⟨0, 2, 1⟩] ∧
    ∀ t : RawPhaseTable, RawPhaseTable.Admitted t ↔ t = rawPhaseTable .canonical ∨ t = rawPhaseTable .parityMatched

/-- A configuration is refused exactly when a table breaks R35 or R37; an admitted one runs from reset with the values
it was given. That the phase table is reported first is log entry 7 (DESIGN CHOICE), and that the run starts from the
state a reset step with all straps 0 leaves is log entry 3 (DESIGN CHOICE). -/
def Obligations.ConfigurationsAreRefusedByTheirTables : Prop :=
  ∀ c : RawConfig,
    (State.configure c = .refused .phaseTable ↔ ¬ RawPhaseTable.Admitted c.phaseTable) ∧
    (RawPhaseTable.Admitted c.phaseTable →
      ((∃ n, State.configure c = .refused (.hallTable n)) ↔ ∃ k : Fin 11, ¬ HallAdmitted c.hallTables[k])) ∧
    (RawPhaseTable.Admitted c.phaseTable → (∀ k : Fin 11, HallAdmitted c.hallTables[k]) →
      ∃ p : Params, State.configure c = .next (State.resetWith p) ∧
        rawPhaseTable p.phaseTable = c.phaseTable ∧
        (∀ k : Fin 11, hallEntriesOf p.hallTables[k] = c.hallTables[k]) ∧
        p.startDuty = c.startDuty ∧ p.promote = c.promote ∧ p.timeCmp = c.timeCmp ∧ p.reservedOp = c.reservedOp)

/-! ## The sample dispatcher -/

/-- SAMPLE in Stopped and in Running writes the voltages and nothing else (R91). -/
def Obligations.SampleOnlyRefreshesOutsideStartingAndLocked : Prop :=
  ∀ (s : State) (va vb vc vbus : Volt), s.regs.fault = 0 → s.regs.state = .stopped ∨ s.regs.state = .running →
    exec (.sample va vb vc vbus) s = .next { s with regs := { s.regs with v := ⟨va, vb, vc⟩ } }

/-- SAMPLE in Locked (R90): beyond the refresh only `state` is written, to Stopped exactly when the lockout has ended:
under WRAP_SAFE when the time since its end, modulo 2^32, is positive as a signed number, under RAW when `t` is above it. -/
def Obligations.LockoutExpiresInASample : Prop :=
  ∀ (s : State) (va vb vc vbus : Volt), s.regs.fault = 0 → s.regs.state = .locked →
    let expired : Prop :=
      match s.params.timeCmp with
      | .wrapSafe =>
        0 < (s.ports.nowMs - s.regs.lockUntilTime).toNat ∧ (s.ports.nowMs - s.regs.lockUntilTime).toNat < 2 ^ 31
      | .raw => s.regs.lockUntilTime.toNat < s.ports.nowMs.toNat
    (expired → exec (.sample va vb vc vbus) s =
      .next { s with regs := { s.regs with v := ⟨va, vb, vc⟩, state := .stopped } }) ∧
    (¬ expired → exec (.sample va vb vc vbus) s = .next { s with regs := { s.regs with v := ⟨va, vb, vc⟩ } })

/-- SAMPLE in Starting (R92, R94, R95) from a legal sector and selector: one commutation if the dormant phase's fresh
sample is strictly below (odd sector) or above (even sector) half the bus voltage or the watchdog has run out, none
otherwise, and then PROMOTE. -/
def Obligations.SampleInStartingResult : Prop :=
  ∀ (s : State) (va vb vc vbus : Volt) (p : Phase), s.regs.fault = 0 → s.regs.state = .starting →
    s.regs.sector.toNat ≤ 5 → s.regs.dsel = phaseCode p →
    let vd := PerPhase.get ⟨va, vb, vc⟩ p
    let zc : Prop :=
      (s.regs.sector.toNat % 2 = 1 ∧ vd.toNat < vbus.toNat / 2) ∨
        (s.regs.sector.toNat % 2 = 0 ∧ vbus.toNat / 2 < vd.toNat)
    let wd : Prop := after s.params.timeCmp s.ports.nowMs (s.regs.lastCommutationTime + 25) = true
    let fresh : State := { s with regs := { s.regs with v := ⟨va, vb, vc⟩ } }
    let moved : State := fresh.afterCommutation (sectorAfter s.regs.direction s.regs.sector.toNat) s.ports.nowMs
    let promoted (u : State) : State :=
      { u with
        regs := { u.regs with state := if promotes s.params.promote u.regs s.ports = true then .running else .starting } }
    (zc ∨ wd → exec (.sample va vb vc vbus) s = .next (promoted moved)) ∧
    (¬ (zc ∨ wd) → exec (.sample va vb vc vbus) s = .next (promoted fresh))

/-- The watchdog (R93): under WRAP_SAFE it fires exactly from 26 ms to 2^31 + 24 ms after the last commutation, modulo
2^32; under RAW exactly when the deadline, modulo 2^32, is below the time. -/
def Obligations.WatchdogFiresAfterTwentyFiveMilliseconds : Prop :=
  ∀ t last : Millis,
    (watchdog .wrapSafe t last = true ↔ 26 ≤ (t - last).toNat ∧ (t - last).toNat ≤ 2 ^ 31 + 24) ∧
    (watchdog .raw t last = true ↔ (last.toNat + 25) % 2 ^ 32 < t.toNat)

/-- The contract violations (R109, R110): each raises its code, makes the outputs dormant, keeps what the operation had
written, and leaves everything else. That a violation is a next state is log entry 9 (DEDUCED); that COMMUTATE runs in
Stopped and Locked too is log entry 10 (DESIGN CHOICE). -/
def Obligations.ContractViolationsRaiseTheirFault : Prop :=
  ∀ s : State, s.regs.fault = 0 →
    (∀ t : Millis, 5 < s.regs.sector.toNat →
      exec (.commutate t) s =
        .next { s with
          regs := { s.regs with fault := 1, pwm := dormantPwm }
          pwmEvents := s.pwmEvents ++ dormantEvents }) ∧
    (∀ va vb vc vbus : Volt, s.regs.state = .starting → 5 < s.regs.sector.toNat →
      exec (.sample va vb vc vbus) s =
        .next { s with
          regs := { s.regs with v := ⟨va, vb, vc⟩, fault := 1, pwm := dormantPwm }
          pwmEvents := s.pwmEvents ++ dormantEvents }) ∧
    (∀ va vb vc vbus : Volt, s.regs.state = .starting → s.regs.sector.toNat ≤ 5 → s.regs.dsel = 3 →
      exec (.sample va vb vc vbus) s =
        .next { s with
          regs := { s.regs with v := ⟨va, vb, vc⟩, fault := 2, pwm := dormantPwm }
          pwmEvents := s.pwmEvents ++ dormantEvents })

/-- Nothing else raises a fault (R109): from `FAULT = 0`, an operation that ends with a fault is COMMUTATE, or a START
that resolves a 7, on an illegal sector, or a SAMPLE in Starting on an illegal sector or selector. That a violation is a
next state is log entry 9, COMMUTATE outside its precondition log entry 10, the entry 7 log entry 11. -/
def Obligations.OnlyContractViolationsRaiseFaults : Prop :=
  ∀ (i : Instr) (s t : State), s.regs.fault = 0 → exec i s = .next t → t.regs.fault ≠ 0 →
    ((∃ time, i = .commutate time) ∧ 5 < s.regs.sector.toNat ∧ t.regs.fault = 1) ∨
    (i = .start ∧ s.regs.state = .stopped ∧ s.regs.sk = .hall ∧ hallEntry s.regs.hdt s.ports.hallIn = 7 ∧
      t.regs.fault = 1) ∨
    ((∃ va vb vc vbus, i = .sample va vb vc vbus) ∧ s.regs.state = .starting ∧
      ((5 < s.regs.sector.toNat ∧ t.regs.fault = 1) ∨
        (s.regs.sector.toNat ≤ 5 ∧ s.regs.dsel = 3 ∧ t.regs.fault = 2)))

/-! ## The whole machine -/

/-- The frame of every operation: it writes only what the summary table of 10_state.md says, and never the inputs, the
step counter or the parameters. -/
def Obligations.EveryOperationKeepsItsFrame : Prop :=
  ∀ (i : Instr) (s t : State), exec i s = .next t → FrameHolds i s t

/-- The edge set (R79, R80): a change of `state` is an edge of the table. -/
def Obligations.StateChangesOnlyAlongItsEdges : Prop :=
  ∀ (i : Instr) (s t : State), exec i s = .next t → t.regs.state ≠ s.regs.state → EdgeAllowed i s t.regs.state

/-- Entering Locked always needs LOCK (R80). -/
def Obligations.LockedIsEnteredOnlyByLock : Prop :=
  ∀ s t : State, step s = .next t → s.regs.state ≠ .locked → t.regs.state = .locked →
    s.nextPorts.rst = false ∧ s.nextPorts.cmdValid = true ∧ (opField s.nextPorts.cmdWord).toNat = 7

/-- With the default PROMOTE, Running is unreachable (R86): no step enters it. -/
def Obligations.RunningIsNotEnteredByDefault : Prop :=
  ∀ s t : State, s.params.promote = .never → step s = .next t → s.regs.state ≠ .running → t.regs.state ≠ .running

/-- The direction, the duty and the start time are fixed for one start and stop cycle (R17 to R19): no step without
reset that begins in Starting or Running changes them, whatever is commanded. -/
def Obligations.DirectionAndDutyAreLatchedWhileDriving : Prop :=
  ∀ s t : State, step s = .next t → Driving s.regs → s.nextPorts.rst = false →
    t.regs.direction = s.regs.direction ∧ t.regs.dutyCycle = s.regs.dutyCycle ∧ t.regs.startTime = s.regs.startTime

/-- The straps are sampled only by reset and INIT (R51): a step with neither leaves `SK` and `HDT`, and what it leaves
does not depend on the straps, unless a designed PROMOTE reads them. -/
def Obligations.StrapsMatterOnlyAtResetAndInit : Prop :=
  ∀ (s : State) (p : Ports) (rest : List Ports) (kind : BitVec 1) (sel : BitVec 4), p.rst = false →
    ¬ (p.cmdValid = true ∧ (opField p.cmdWord).toNat = 1) →
    (∀ t, step { s with pendingInputs := p :: rest } = .next t → t.regs.sk = s.regs.sk ∧ t.regs.hdt = s.regs.hdt) ∧
    (s.params.promote ≠ .designed → ∀ t, step { s with pendingInputs := p :: rest } = .next t →
      ∃ u, step { s with pendingInputs := { p with cfgSensorKind := kind, cfgHallSel := sel } :: rest } = .next u ∧
        u.regs = t.regs ∧ u.pwmEvents = t.pwmEvents)

/-- Each input port is read only where R49 says: an operation answers alike under inputs that agree on the ports it
reads (the straps for INIT and reset, the Hall pins for those and for START and RESOLVE_SECTOR, the clock for START and
SAMPLE), unless a designed PROMOTE reads the others. -/
def Obligations.OperationsReadOnlyTheirInputs : Prop :=
  ∀ (i : Instr) (s t : State) (q : Ports), s.params.promote ≠ .designed →
    (i = .init ∨ i = .reset →
      q.cfgSensorKind = s.ports.cfgSensorKind ∧ q.cfgHallSel = s.ports.cfgHallSel) →
    (i = .init ∨ i = .reset ∨ i = .start ∨ i = .resolveSector → q.hallIn = s.ports.hallIn) →
    (i = .start ∨ (∃ va vb vc vbus, i = .sample va vb vc vbus) → q.nowMs = s.ports.nowMs) →
    exec i s = .next t → exec i { s with ports := q } = .next { t with ports := q }

/-- No rule reads `CMD_DUTY` or `startTime` (R19, R27, R100): whatever they hold, an operation answers alike in every
other field; a designed PROMOTE could read them, so it is left out. -/
def Obligations.CmdDutyAndStartTimeAreNeverRead : Prop :=
  ∀ (i : Instr) (s t : State) (d : Duty) (time : Millis), s.params.promote ≠ .designed →
    exec i s = .next t →
    ∃ u, exec i { s with regs := { s.regs with cmdDuty := d, startTime := time } } = .next u ∧
      { u with regs := { u.regs with cmdDuty := t.regs.cmdDuty, startTime := t.regs.startTime } } = t

/-- The PWM registers hold the last write per phase, and a step makes at most six (R60): over every step the output
registers are the old ones with the step's events applied in order. -/
def Obligations.PwmRegistersHoldTheLastWrites : Prop :=
  ∀ s t : State, step s = .next t →
    t.regs.pwm = t.pwmEvents.foldl (fun x e => PerPhase.set x e.phase ⟨e.mode, e.duty⟩) s.regs.pwm ∧
    t.pwmEvents.length ≤ 6

/-- The invariant of R31 and R78 is kept by every step, with no contract violation: the three checks of R109 are
unreachable. -/
def Obligations.EveryStepKeepsTheInvariant : Prop :=
  ∀ s t : State, s.Inv → step s = .next t → t.Inv

/-- The reset state has the invariant; the straps and parameters in it are the model's choice (log entries 3 to 7). -/
def Obligations.ResetStateHasTheInvariant : Prop := State.reset.Inv

/-- A reset step establishes the invariant from every state, a halted or illegal one too (R31, R122). -/
def Obligations.ResetStepEstablishesTheInvariant : Prop :=
  ∀ s t : State, s.nextPorts.rst = true → step s = .next t → t.Inv
end

