-- ==== Sys2Proof/Laws/Encoding.lean ====
section
/-! SUPPORT. The fields of a command word built from an opcode and an argument. -/

namespace Sys2Proof.Laws

@[simp] theorem opField_cmdWordOf (op : Opcode) (a : Arg) : opField (cmdWordOf op a) = op := by
  apply BitVec.eq_of_getLsbD_eq
  intro i hi
  simp only [opField, cmdWordOf, BitVec.getLsbD_extractLsb', BitVec.getLsbD_append]
  simp [hi]

@[simp] theorem argField_cmdWordOf (op : Opcode) (a : Arg) : argField (cmdWordOf op a) = a := by
  apply BitVec.eq_of_getLsbD_eq
  intro i hi
  simp only [argField, cmdWordOf, BitVec.getLsbD_extractLsb', BitVec.getLsbD_append]
  simp [hi]

/-- A command word is its opcode and its argument. -/
theorem cmdWordOf_fields (w : CmdWord) : cmdWordOf (opField w) (argField w) = w := by
  apply BitVec.eq_of_getLsbD_eq
  intro i hi
  simp only [opField, argField, cmdWordOf, BitVec.getLsbD_extractLsb', BitVec.getLsbD_append]
  split
  · simp [*]
  · rename_i h
    have h4 : 4 ≤ i := by omega
    simp [show i - 4 < 32 by omega, show 4 + (i - 4) = i by omega]

@[simp] theorem dirOperand_dirBit (d : Direction) : dirOperand ((dirBit d).setWidth 32) = d := by cases d <;> decide

@[simp] theorem dutyOperand_setWidth (d : Duty) : dutyOperand (d.setWidth 32) = d := by
  apply BitVec.eq_of_getLsbD_eq
  intro i hi
  simp [dutyOperand, hi]
  omega

end Sys2Proof.Laws
end

