-- ==== Sys2Proof/Laws/State.lean ====
section
/-! SUPPORT. What each update of the state does to each field, true by unfolding the update once. -/

namespace Sys2Proof.Laws

open Machine

/-! PWM writes. -/

@[simp] theorem pwmWrite_regs (s : State) (p : Phase) (m : PwmMode) (d : Duty) :
    (s.pwmWrite p m d).regs = { s.regs with pwm := PerPhase.set s.regs.pwm p ⟨m, d⟩ } := rfl
@[simp] theorem pwmWrite_pwmEvents (s : State) (p : Phase) (m : PwmMode) (d : Duty) :
    (s.pwmWrite p m d).pwmEvents = s.pwmEvents ++ [⟨p, m, d⟩] := rfl
@[simp] theorem pwmWrite_ports (s : State) (p : Phase) (m : PwmMode) (d : Duty) :
    (s.pwmWrite p m d).ports = s.ports := rfl
@[simp] theorem pwmWrite_pendingInputs (s : State) (p : Phase) (m : PwmMode) (d : Duty) :
    (s.pwmWrite p m d).pendingInputs = s.pendingInputs := rfl
@[simp] theorem pwmWrite_tick (s : State) (p : Phase) (m : PwmMode) (d : Duty) :
    (s.pwmWrite p m d).tick = s.tick := rfl
@[simp] theorem pwmWrite_params (s : State) (p : Phase) (m : PwmMode) (d : Duty) :
    (s.pwmWrite p m d).params = s.params := rfl

@[simp] theorem allDormant_regs (s : State) :
    s.allDormant.regs = { s.regs with pwm := ⟨⟨.dormant, 0⟩, ⟨.dormant, 0⟩, ⟨.dormant, 0⟩⟩ } := rfl
@[simp] theorem allDormant_pwmEvents (s : State) :
    s.allDormant.pwmEvents = s.pwmEvents ++ [⟨.a, .dormant, 0⟩, ⟨.b, .dormant, 0⟩, ⟨.c, .dormant, 0⟩] := by
  simp [State.allDormant]
@[simp] theorem allDormant_ports (s : State) : s.allDormant.ports = s.ports := rfl
@[simp] theorem allDormant_pendingInputs (s : State) : s.allDormant.pendingInputs = s.pendingInputs := rfl
@[simp] theorem allDormant_tick (s : State) : s.allDormant.tick = s.tick := rfl
@[simp] theorem allDormant_params (s : State) : s.allDormant.params = s.params := rfl

@[simp] theorem raiseFault_regs (s : State) (c : FaultCode) :
    (s.raiseFault c).regs =
      { s.regs with fault := c, pwm := ⟨⟨.dormant, 0⟩, ⟨.dormant, 0⟩, ⟨.dormant, 0⟩⟩ } := rfl
@[simp] theorem raiseFault_pwmEvents (s : State) (c : FaultCode) :
    (s.raiseFault c).pwmEvents = s.pwmEvents ++ [⟨.a, .dormant, 0⟩, ⟨.b, .dormant, 0⟩, ⟨.c, .dormant, 0⟩] := by
  simp [State.raiseFault]
@[simp] theorem raiseFault_ports (s : State) (c : FaultCode) : (s.raiseFault c).ports = s.ports := rfl
@[simp] theorem raiseFault_pendingInputs (s : State) (c : FaultCode) :
    (s.raiseFault c).pendingInputs = s.pendingInputs := rfl
@[simp] theorem raiseFault_tick (s : State) (c : FaultCode) : (s.raiseFault c).tick = s.tick := rfl
@[simp] theorem raiseFault_params (s : State) (c : FaultCode) : (s.raiseFault c).params = s.params := rfl

/-! The start of a step. -/

@[simp] theorem beginStep_regs (s : State) : s.beginStep.regs = s.regs := rfl
@[simp] theorem beginStep_pwmEvents (s : State) : s.beginStep.pwmEvents = [] := rfl
@[simp] theorem beginStep_ports (s : State) : s.beginStep.ports = s.nextPorts := rfl
@[simp] theorem beginStep_pendingInputs (s : State) : s.beginStep.pendingInputs = s.pendingInputs.tail := rfl
@[simp] theorem beginStep_tick (s : State) : s.beginStep.tick = s.tick + 1 := rfl
@[simp] theorem beginStep_params (s : State) : s.beginStep.params = s.params := rfl

/-! The refresh, the launch and stage 1 of reset. -/

@[simp] theorem refresh_regs (s : State) (va vb vc : Volt) :
    (s.refresh va vb vc).regs = { s.regs with v := ⟨va, vb, vc⟩ } := rfl
@[simp] theorem refresh_pwmEvents (s : State) (va vb vc : Volt) : (s.refresh va vb vc).pwmEvents = s.pwmEvents := rfl
@[simp] theorem refresh_ports (s : State) (va vb vc : Volt) : (s.refresh va vb vc).ports = s.ports := rfl
@[simp] theorem refresh_pendingInputs (s : State) (va vb vc : Volt) :
    (s.refresh va vb vc).pendingInputs = s.pendingInputs := rfl
@[simp] theorem refresh_tick (s : State) (va vb vc : Volt) : (s.refresh va vb vc).tick = s.tick := rfl
@[simp] theorem refresh_params (s : State) (va vb vc : Volt) : (s.refresh va vb vc).params = s.params := rfl

@[simp] theorem launch_regs (s : State) :
    s.launch.regs =
      { s.regs with
        state := .starting
        sector := 0
        dutyCycle := s.params.startDuty
        direction := s.regs.cmdDir
        startTime := s.ports.nowMs } := rfl
@[simp] theorem launch_pwmEvents (s : State) : s.launch.pwmEvents = s.pwmEvents := rfl
@[simp] theorem launch_ports (s : State) : s.launch.ports = s.ports := rfl
@[simp] theorem launch_pendingInputs (s : State) : s.launch.pendingInputs = s.pendingInputs := rfl
@[simp] theorem launch_tick (s : State) : s.launch.tick = s.tick := rfl
@[simp] theorem launch_params (s : State) : s.launch.params = s.params := rfl

@[simp] theorem resetRegisters_sk (s : State) : s.resetRegisters.regs.sk = s.regs.sk := rfl
@[simp] theorem resetRegisters_hdt (s : State) : s.resetRegisters.regs.hdt = s.regs.hdt := rfl
@[simp] theorem resetRegisters_pwmEvents (s : State) : s.resetRegisters.pwmEvents = s.pwmEvents := rfl
@[simp] theorem resetRegisters_ports (s : State) : s.resetRegisters.ports = s.ports := rfl
@[simp] theorem resetRegisters_pendingInputs (s : State) : s.resetRegisters.pendingInputs = s.pendingInputs := rfl
@[simp] theorem resetRegisters_tick (s : State) : s.resetRegisters.tick = s.tick := rfl
@[simp] theorem resetRegisters_params (s : State) : s.resetRegisters.params = s.params := rfl

/-! `Now()` is the step's sample of the clock. -/

@[simp] theorem now_eq (s : State) : s.now = s.ports.nowMs := rfl

end Sys2Proof.Laws
end

