-- ==== Sys2Proof/Laws/Ops.lean ====
section
/-! SUPPORT. One lemma per shared operation that says everything it can do. -/

namespace Sys2Proof.Laws

open Machine

/-! Codes, sectors and tables. -/

@[simp] theorem phaseOfCode_phaseCode (p : Phase) : phaseOfCode (phaseCode p) = some p := by cases p <;> rfl

theorem phaseCode_ne_three (p : Phase) : phaseCode p ≠ 3 := by cases p <;> decide

theorem phaseOfCode_eq_none_iff : ∀ c : PhaseCode, phaseOfCode c = none ↔ c = 3 := by decide

@[simp] theorem sensorKindOfCode_sensorKindCode (k : SensorKind) : sensorKindOfCode (sensorKindCode k) = k := by
  cases k <;> rfl

@[simp] theorem sensorKindOfCode_eq_hall_iff : ∀ b : BitVec 1, sensorKindOfCode b = .hall ↔ b = 1 := by decide

@[simp] theorem hallCode_eq : ∀ h : BitVec 3, hallCode h = h := by decide

theorem sectorBits_legal : ∀ k : Fin 6, (sectorBits k).toNat = k.val := by decide

theorem sectorBits_le (k : Fin 6) : (sectorBits k).toNat ≤ 5 := by rw [sectorBits_legal]; omega

theorem sectorBits_injective : ∀ j k : Fin 6, sectorBits j = sectorBits k → j = k := by decide

/-- A legal sector is some sector number's bits. -/
theorem exists_sectorBits : ∀ x : Sector, x.toNat ≤ 5 → ∃ k : Fin 6, sectorBits k = x := by decide

/-- An admitted Hall table holds no 7. -/
theorem hallEntriesOf_ne_seven (t : HallTable) (c : HallCode) : hallEntry (hallEntriesOf t) c ≠ 7 := by
  have entry : ∀ x : Fin 7, BitVec.ofNat 3 x.val ≠ 7 := by decide
  have h : ∀ k : Fin 8, (hallEntriesOf t)[k] ≠ 7 := by
    intro k
    fin_cases k <;> simp [hallEntriesOf] <;> exact entry _
  exact h ⟨c.toNat, c.isLt⟩

/-- Every selectable Hall table holds no 7. -/
theorem hallTables_ne_seven {p : Params} {sel : BitVec 4} {t : HallEntries} (h : hallTables p sel = some t) (c : HallCode) :
    hallEntry t c ≠ 7 := by
  unfold hallTables at h
  split at h
  · cases h
    revert c
    decide
  · obtain ⟨a, -, rfl⟩ := Option.map_eq_some_iff.mp h
    exact hallEntriesOf_ne_seven a c

/-- A selection has a table exactly when it is 0 to 11. -/
theorem hallTables_eq_none_iff (p : Params) (sel : BitVec 4) : hallTables p sel = none ↔ 12 ≤ sel.toNat := by
  by_cases h : sel = 0
  · subst h; simp [hallTables]
  · have : sel.toNat ≠ 0 := fun e => h (BitVec.eq_of_toNat_eq (by simpa using e))
    rw [hallTables, if_neg h, Option.map_eq_none_iff, Vector.getElem?_eq_none_iff]
    omega

/-! The halt. -/

theorem unlessHalted_live {s : State} (h : s.regs.fault = 0) (f : State → Host.Outcome State Fault Refusal) :
    s.unlessHalted f = f s := if_pos h

theorem unlessHalted_halted {s : State} (h : s.regs.fault ≠ 0) (f : State → Host.Outcome State Fault Refusal) :
    s.unlessHalted f = .next s := if_neg h

/-! RESOLVE_SECTOR. -/

/-- RESOLVE_SECTOR writes `sector` at most. -/
theorem resolveSector_eq (s : State) :
    s.resolveSector =
      { s with
        regs := { s.regs with
          sector :=
            if s.regs.sk = .hall ∧ hallEntry s.regs.hdt s.ports.hallIn ≠ 6 then hallEntry s.regs.hdt s.ports.hallIn
            else s.regs.sector } } := by
  unfold State.resolveSector
  split
  · rw [if_neg (by simp [*])]
  · simp only [hallCode_eq]
    split
    · rw [if_neg (by simp [*])]
    · rw [if_pos ⟨‹_›, ‹_›⟩]

/-- The two courses of RESOLVE_SECTOR. -/
theorem resolveSector_cases (s : State) :
    (s.regs.sk = .hall ∧ hallEntry s.regs.hdt s.ports.hallIn ≠ 6 ∧
        s.resolveSector = { s with regs := { s.regs with sector := hallEntry s.regs.hdt s.ports.hallIn } }) ∨
      (¬ (s.regs.sk = .hall ∧ hallEntry s.regs.hdt s.ports.hallIn ≠ 6) ∧ s.resolveSector = s) := by
  by_cases h : s.regs.sk = .hall ∧ hallEntry s.regs.hdt s.ports.hallIn ≠ 6
  · exact .inl ⟨h.1, h.2, by rw [resolveSector_eq, if_pos h]⟩
  · exact .inr ⟨h, by rw [resolveSector_eq, if_neg h]⟩

@[simp] theorem resolveSector_pwmEvents (s : State) : s.resolveSector.pwmEvents = s.pwmEvents := by rw [resolveSector_eq]
@[simp] theorem resolveSector_ports (s : State) : s.resolveSector.ports = s.ports := by rw [resolveSector_eq]
@[simp] theorem resolveSector_pendingInputs (s : State) : s.resolveSector.pendingInputs = s.pendingInputs := by
  rw [resolveSector_eq]
@[simp] theorem resolveSector_tick (s : State) : s.resolveSector.tick = s.tick := by rw [resolveSector_eq]
@[simp] theorem resolveSector_params (s : State) : s.resolveSector.params = s.params := by rw [resolveSector_eq]

/-- A legal table keeps a legal sector legal. -/
theorem resolveSector_sector_le {s : State} (hs : s.regs.sector.toNat ≤ 5) (ht : ∀ c, hallEntry s.regs.hdt c ≠ 7) :
    s.resolveSector.regs.sector.toNat ≤ 5 := by
  have legal : ∀ x : BitVec 3, x ≠ 6 → x ≠ 7 → x.toNat ≤ 5 := by decide
  rw [resolveSector_eq]
  dsimp only
  split
  · exact legal _ (by simp_all) (ht _)
  · exact hs

/-! COMMUTATE. -/

/-- The registers a commutation into sector `k` leaves. -/
theorem commutateTo_regs (s : State) (k : Fin 6) (t : Millis) :
    (s.commutateTo k t).regs =
      { s.regs with
        sector := sectorBits k
        pwm := PerPhase.set (PerPhase.set (PerPhase.set s.regs.pwm
            (romPhase s.params.phaseTable k).dorm ⟨.dormant, s.regs.dutyCycle⟩)
          (romPhase s.params.phaseTable k).hi ⟨.driven, highSideDuty s.regs.dutyCycle⟩)
          (romPhase s.params.phaseTable k).lo ⟨.driven, lowSideDuty s.regs.dutyCycle⟩
        dsel := phaseCode (romPhase s.params.phaseTable k).dorm
        lastCommutationTime := if s.regs.state = .starting then t else s.regs.lastCommutationTime } := rfl

/-- The events a commutation into sector `k` appends. -/
theorem commutateTo_pwmEvents (s : State) (k : Fin 6) (t : Millis) :
    (s.commutateTo k t).pwmEvents =
      s.pwmEvents ++
        [⟨(romPhase s.params.phaseTable k).dorm, .dormant, s.regs.dutyCycle⟩,
         ⟨(romPhase s.params.phaseTable k).hi, .driven, highSideDuty s.regs.dutyCycle⟩,
         ⟨(romPhase s.params.phaseTable k).lo, .driven, lowSideDuty s.regs.dutyCycle⟩] := by
  simp [State.commutateTo]

@[simp] theorem commutateTo_ports (s : State) (k : Fin 6) (t : Millis) : (s.commutateTo k t).ports = s.ports := rfl
@[simp] theorem commutateTo_pendingInputs (s : State) (k : Fin 6) (t : Millis) :
    (s.commutateTo k t).pendingInputs = s.pendingInputs := rfl
@[simp] theorem commutateTo_tick (s : State) (k : Fin 6) (t : Millis) : (s.commutateTo k t).tick = s.tick := rfl
@[simp] theorem commutateTo_params (s : State) (k : Fin 6) (t : Millis) : (s.commutateTo k t).params = s.params := rfl

/-- From a legal sector COMMUTATE commutates. -/
theorem commutate_of_legal {s : State} (h : s.regs.sector.toNat ≤ 5) (t : Millis) :
    s.commutate t = s.commutateTo (nextSector s.regs.direction s.regs.sector) t := by
  simp [State.commutate, Nat.not_lt.mpr h]

/-- From sector 6 or 7 COMMUTATE raises the contract violation. -/
theorem commutate_of_illegal {s : State} (h : 5 < s.regs.sector.toNat) (t : Millis) :
    s.commutate t = s.raiseFault faultSectorRange := by
  simp [State.commutate, h]

/-- After a commutation three distinct phases hold the three outputs. -/
theorem romPhase_distinct (t : PhaseTable) (k : Fin 6) :
    (romPhase t k).hi ≠ (romPhase t k).lo ∧ (romPhase t k).hi ≠ (romPhase t k).dorm ∧
      (romPhase t k).lo ≠ (romPhase t k).dorm := by
  cases t <;> revert k <;> decide

theorem PerPhase_get_set_same {α : Type} (x : PerPhase α) (p : Phase) (y : α) : PerPhase.get (PerPhase.set x p y) p = y := by
  cases p <;> rfl

theorem PerPhase_get_set_ne {α : Type} (x : PerPhase α) {p q : Phase} (h : q ≠ p) (y : α) :
    PerPhase.get (PerPhase.set x p y) q = PerPhase.get x q := by
  cases p <;> cases q <;> first | rfl | exact absurd rfl h

/-! The INIT effect. -/

/-- The INIT effect's registers but for `sector`, and its events. -/
theorem initWith_eq (s : State) (t : HallEntries) :
    s.initWith t =
      { s with
        regs := { s.regs with
          state := .stopped
          sk := sensorKindOfCode s.ports.cfgSensorKind
          hdt := t
          pwm := ⟨⟨.dormant, 0⟩, ⟨.dormant, 0⟩, ⟨.dormant, 0⟩⟩
          sector :=
            if s.ports.cfgSensorKind = 1 ∧ hallEntry t s.ports.hallIn ≠ 6 then hallEntry t s.ports.hallIn else 0 }
        pwmEvents := s.pwmEvents ++ [⟨.a, .dormant, 0⟩, ⟨.b, .dormant, 0⟩, ⟨.c, .dormant, 0⟩] } := by
  unfold State.initWith
  rw [resolveSector_eq]
  simp [State.allDormant, State.pwmWrite, PwmEvent.apply, PerPhase.set]

/-- INIT on the straps goes on exactly when the selection has a table. -/
theorem initFromStraps_cases (s : State) :
    (∃ t, hallTables s.params s.ports.cfgHallSel = some t ∧ s.initFromStraps = .next (s.initWith t)) ∨
      (hallTables s.params s.ports.cfgHallSel = none ∧ s.initFromStraps = .refused (.hallSelect s.ports.cfgHallSel)) := by
  unfold State.initFromStraps
  cases h : hallTables s.params s.ports.cfgHallSel
  · exact .inr ⟨rfl, rfl⟩
  · exact .inl ⟨_, rfl, rfl⟩

/-! The promotion check. -/

/-- The promotion check writes `state` at most, and only to Running. -/
theorem promoteCheck_eq (s : State) :
    s.promoteCheck = { s with regs := { s.regs with state := if s.promoteHolds then .running else s.regs.state } } := by
  unfold State.promoteCheck
  split <;> rfl

/-- The two courses of the promotion check. -/
theorem promoteCheck_cases (s : State) :
    (s.promoteHolds = true ∧ s.promoteCheck = { s with regs := { s.regs with state := .running } }) ∨
      (s.promoteHolds = false ∧ s.promoteCheck = s) := by
  cases h : s.promoteHolds <;> simp [State.promoteCheck, h]

theorem promoteHolds_never {s : State} (h : s.params.promote = .never) : s.promoteHolds = false := by
  simp [State.promoteHolds, h]

theorem promoteHolds_always {s : State} (h : s.params.promote = .always) : s.promoteHolds = true := by
  simp [State.promoteHolds, h]

/-- Lock expiry writes `state` at most, and only to Stopped. -/
theorem sampleLocked_eq (s : State) :
    s.sampleLocked =
      { s with
        regs := { s.regs with
          state := if after s.params.timeCmp s.ports.nowMs s.regs.lockUntilTime then .stopped else s.regs.state } } := by
  rw [State.sampleLocked, now_eq]
  by_cases h : after s.params.timeCmp s.ports.nowMs s.regs.lockUntilTime = true
  · rw [if_pos h, if_pos h]
  · rw [if_neg h, if_neg h]

/-- The two courses of the Locked branch. -/
theorem sampleLocked_cases (s : State) :
    (after s.params.timeCmp s.ports.nowMs s.regs.lockUntilTime = true ∧
        s.sampleLocked = { s with regs := { s.regs with state := .stopped } }) ∨
      (after s.params.timeCmp s.ports.nowMs s.regs.lockUntilTime = false ∧ s.sampleLocked = s) := by
  cases h : after s.params.timeCmp s.ports.nowMs s.regs.lockUntilTime <;> simp [State.sampleLocked, h]

/-- The Starting branch from legal registers: the commutation if a condition holds, then the promotion check. -/
theorem sampleStarting_of_legal {s : State} {p : Phase} (hs : s.regs.sector.toNat ≤ 5) (hd : phaseOfCode s.regs.dsel = some p)
    (hf : s.regs.fault = 0) (vbus : Volt) :
    s.sampleStarting vbus =
      (if s.commutesOn p vbus then s.commutateTo (nextSector s.regs.direction s.regs.sector) s.ports.nowMs
       else s).promoteCheck := by
  have hs' : ¬ 5 < s.regs.sector.toNat := Nat.not_lt.mpr hs
  simp only [State.sampleStarting, hs', if_false, hd, now_eq, commutate_of_legal hs]
  split <;> simp [commutateTo_regs, hf]

end Sys2Proof.Laws
end

