-- ==== Sys2Proof/Laws/Step.lean ====
section
/-! SUPPORT. What the arbiter can do, said once; the meanings while the block is not halted. -/

namespace Sys2Proof.Laws

open Machine

@[simp] theorem andThen_next (s : State) (f : State → Host.Outcome State Fault Refusal) : andThen (.next s) f = f s := rfl
@[simp] theorem andThen_refused (r : Refusal) (f : State → Host.Outcome State Fault Refusal) :
    andThen (.refused r) f = .refused r := rfl

/-- A continuation answers a next state only after the first operation did. -/
theorem andThen_eq_next {o : Host.Outcome State Fault Refusal} {f : State → Host.Outcome State Fault Refusal} {t : State}
    (h : andThen o f = .next t) : ∃ u, o = .next u ∧ f u = .next t := by
  cases o with
  | next u => exact ⟨u, rfl, h⟩
  | fault r => cases h
  | refused r => cases h

/-- The command phase is one `exec` or leaves the state alone. -/
theorem runCommand_eq_next {s u : State} (h : s.runCommand = .next u) :
    (s.ports.cmdValid = true ∧ exec (decode s.ports.cmdWord) s = .next u) ∨ (s.ports.cmdValid = false ∧ u = s) := by
  by_cases hc : s.ports.cmdValid = true
  · exact .inl ⟨hc, by rwa [State.runCommand, if_pos hc] at h⟩
  · rw [State.runCommand, if_neg hc] at h
    exact .inr ⟨Bool.eq_false_iff.mpr hc, by cases h; rfl⟩

/-- The sample phase is one `exec` of the sample event or leaves the state alone. -/
theorem runSample_eq_next {s t : State} (h : s.runSample = .next t) :
    (s.regs.fault = 0 ∧ s.ports.sampleValid = true ∧ exec (sampleInstr s.ports) s = .next t) ∨
      ((s.regs.fault ≠ 0 ∨ s.ports.sampleValid = false) ∧ t = s) := by
  by_cases hf : s.regs.fault = 0
  · by_cases hv : s.ports.sampleValid = true
    · exact .inl ⟨hf, hv, by rwa [State.runSample, if_pos hf, if_pos hv] at h⟩
    · rw [State.runSample, if_pos hf, if_neg hv] at h
      exact .inr ⟨.inr (Bool.eq_false_iff.mpr hv), by cases h; rfl⟩
  · rw [State.runSample, if_neg hf] at h
    exact .inr ⟨.inl hf, by cases h; rfl⟩

/-- The three courses of a step that goes on: reset, halt, or the command phase and then the sample phase. -/
theorem step_eq_next {s t : State} (h : step s = .next t) :
    (s.nextPorts.rst = true ∧ exec .reset s.beginStep = .next t) ∨
      (s.nextPorts.rst = false ∧ s.regs.fault ≠ 0 ∧ t = s.beginStep) ∨
      (s.nextPorts.rst = false ∧ s.regs.fault = 0 ∧
        ∃ u, s.beginStep.runCommand = .next u ∧ u.runSample = .next t) := by
  rw [step, State.arbitrate, beginStep_ports, beginStep_regs] at h
  by_cases hr : s.nextPorts.rst = true
  · exact .inl ⟨hr, by rwa [if_pos hr] at h⟩
  · rw [if_neg hr] at h
    have hr' := Bool.eq_false_iff.mpr hr
    by_cases hf : s.regs.fault = 0
    · exact .inr (.inr ⟨hr', hf, andThen_eq_next (by rwa [if_pos hf] at h)⟩)
    · rw [if_neg hf] at h
      exact .inr (.inl ⟨hr', hf, by cases h; rfl⟩)

/-- SAMPLE while the block is not halted, branch by branch. -/
theorem execSample_live {s : State} (h : s.regs.fault = 0) (va vb vc vbus : Volt) :
    execSample va vb vc vbus s =
      .next (match s.regs.state with
        | .locked => (s.refresh va vb vc).sampleLocked
        | .starting => (s.refresh va vb vc).sampleStarting vbus
        | .stopped => s.refresh va vb vc
        | .running => s.refresh va vb vc) := by
  unfold execSample
  rw [unlessHalted_live h]
  simp only [refresh_regs]
  cases s.regs.state <;> rfl

end Sys2Proof.Laws
end

