-- ==== Sys2Proof/Laws/Exec.lean ====
section
/-! SUPPORT. What `exec` can do, said once: the inversion lemma over all operations, and the courses of a SAMPLE and of a COMMUTATE. -/

namespace Sys2Proof.Laws

open Machine

/-- What an operation does when it goes on and is not held by the halt, in the shared operations. -/
def Effect (i : Instr) (s t : State) : Prop :=
  match i with
  | .nop => t = s
  | .init => ∃ table, hallTables s.params s.ports.cfgHallSel = some table ∧ t = s.initWith table
  | .start =>
    (s.regs.state = .stopped ∧ t = s.launch.resolveSector.commutate s.ports.nowMs) ∨ (s.regs.state ≠ .stopped ∧ t = s)
  | .stop => t = { s.allDormant with regs := { s.allDormant.regs with state := .stopped } }
  | .setDir d => t = { s with regs := { s.regs with cmdDir := d } }
  | .setDuty d => t = { s with regs := { s.regs with cmdDuty := d } }
  | .getState => t = { s with regs := { s.regs with rsp := s.regs.state } }
  | .lock till =>
    t = { s.allDormant with regs := { s.allDormant.regs with lockUntilTime := till, state := .locked } }
  | .reserved _ _ => s.params.reservedOp = .nop ∧ t = s
  | .sample va vb vc vbus =>
    (s.regs.state = .locked ∧ t = (s.refresh va vb vc).sampleLocked) ∨
      (s.regs.state = .starting ∧ t = (s.refresh va vb vc).sampleStarting vbus) ∨
      ((s.regs.state = .stopped ∨ s.regs.state = .running) ∧ t = s.refresh va vb vc)
  | .reset => ∃ table, hallTables s.params s.ports.cfgHallSel = some table ∧ t = s.resetRegisters.initWith table
  | .resolveSector => t = s.resolveSector
  | .commutate time => t = s.commutate time

/-- INIT on the straps answers a next state only with a selectable table. -/
theorem initFromStraps_eq_next {s t : State} (h : s.initFromStraps = .next t) :
    ∃ table, hallTables s.params s.ports.cfgHallSel = some table ∧ t = s.initWith table := by
  rcases initFromStraps_cases s with ⟨table, ht, e⟩ | ⟨-, e⟩ <;> rw [e] at h
  · exact ⟨table, ht, by cases h; rfl⟩
  · cases h

/-- Reset answers a next state only with a selectable table. -/
theorem execReset_eq_next {s t : State} (h : execReset s = .next t) : Effect .reset s t := by
  simpa [Effect] using initFromStraps_eq_next h

/-- Every operation but reset leaves a halted block alone. -/
theorem exec_halted {s : State} (hf : s.regs.fault ≠ 0) {i : Instr} (hi : i ≠ .reset) : exec i s = .next s := by
  cases i <;>
    first
      | exact absurd rfl hi
      | simp only [exec, execNop, execInit, execStart, execStop, execSetDir, execSetDuty, execGetState, execLock,
          execReserved, execSample, execResolveSector, execCommutate, unlessHalted_halted hf]

/-- The inversion lemma of `exec`: a halted block goes on unchanged, and otherwise the operation has its effect. -/
theorem exec_eq_next {i : Instr} {s t : State} (h : exec i s = .next t) :
    (s.regs.fault ≠ 0 ∧ i ≠ .reset ∧ t = s) ∨ ((s.regs.fault = 0 ∨ i = .reset) ∧ Effect i s t) := by
  by_cases hi : i = .reset
  · subst hi
    exact .inr ⟨.inr rfl, execReset_eq_next h⟩
  by_cases hf : s.regs.fault = 0
  swap
  · rw [exec_halted hf hi] at h
    exact .inl ⟨hf, hi, by cases h; rfl⟩
  refine .inr ⟨.inl hf, ?_⟩
  cases i with
  | reset => exact absurd rfl hi
  | sample va vb vc vbus =>
    change execSample va vb vc vbus s = _ at h
    rw [execSample_live hf] at h
    cases h
    cases hs : s.regs.state <;> simp [Effect, hs]
  | init =>
    simp only [exec, execInit, unlessHalted_live hf] at h
    exact initFromStraps_eq_next h
  | start =>
    simp only [exec, execStart, unlessHalted_live hf] at h
    by_cases hs : s.regs.state = .stopped
    · rw [if_pos hs] at h
      exact .inl ⟨hs, by cases h; rfl⟩
    · rw [if_neg hs] at h
      exact .inr ⟨hs, by cases h; rfl⟩
  | reserved op arg =>
    simp only [exec, execReserved, unlessHalted_live hf] at h
    cases hp : s.params.reservedOp <;> rw [hp] at h <;> cases h
    exact ⟨hp, rfl⟩
  | nop | stop | setDir | setDuty | getState | lock | resolveSector | commutate =>
    simp only [exec, execNop, execStop, execSetDir, execSetDuty, execGetState, execLock, execResolveSector, execCommutate,
      unlessHalted_live hf] at h
    cases h
    rfl

/-- An operation that is not held by the halt, has a selectable table if it needs one and is not refused by policy, has
its effect: the converse of `exec_eq_next`. -/
theorem exec_of_effect {i : Instr} {s t : State} (hf : s.regs.fault = 0 ∨ i = .reset) (h : Effect i s t) :
    exec i s = .next t := by
  have goesOn : ∀ {u : State} {table : HallEntries}, hallTables u.params u.ports.cfgHallSel = some table →
      u.initFromStraps = .next (u.initWith table) := by
    intro u table ht
    simp [State.initFromStraps, ht]
  cases i with
  | reset =>
    obtain ⟨table, ht, rfl⟩ := h
    exact goesOn (u := s.resetRegisters) ht
  | sample va vb vc vbus =>
    have hf : s.regs.fault = 0 := hf.resolve_right (by simp)
    change execSample va vb vc vbus s = _
    rw [execSample_live hf]
    rcases h with ⟨hs, rfl⟩ | ⟨hs, rfl⟩ | ⟨hs | hs, rfl⟩ <;> rw [hs]
  | init =>
    have hf : s.regs.fault = 0 := hf.resolve_right (by simp)
    obtain ⟨table, ht, rfl⟩ := h
    simp only [exec, execInit, unlessHalted_live hf]
    exact goesOn ht
  | start =>
    have hf : s.regs.fault = 0 := hf.resolve_right (by simp)
    simp only [exec, execStart, unlessHalted_live hf]
    rcases h with ⟨hs, rfl⟩ | ⟨hs, rfl⟩
    · exact if_pos hs
    · exact if_neg hs
  | reserved op arg =>
    have hf : s.regs.fault = 0 := hf.resolve_right (by simp)
    obtain ⟨hp, rfl⟩ := h
    simp only [exec, execReserved, unlessHalted_live hf, hp]
  | nop | stop | setDir | setDuty | getState | lock | resolveSector | commutate =>
    have hf : s.regs.fault = 0 := hf.resolve_right (by simp)
    cases h
    simp only [exec, execNop, execStop, execSetDir, execSetDuty, execGetState, execLock, execResolveSector, execCommutate,
      unlessHalted_live hf] <;> rfl

/-- The courses of a COMMUTATE: the contract violation, or the commutation. -/
theorem commutate_cases (s : State) (time : Millis) :
    (5 < s.regs.sector.toNat ∧ s.commutate time = s.raiseFault faultSectorRange) ∨
      (s.regs.sector.toNat ≤ 5 ∧
        s.commutate time = s.commutateTo (nextSector s.regs.direction s.regs.sector) time) := by
  rcases Nat.lt_or_ge 5 s.regs.sector.toNat with h | h
  · exact .inl ⟨h, commutate_of_illegal h time⟩
  · exact .inr ⟨h, commutate_of_legal h time⟩

/-- The courses of a SAMPLE in Starting: the two contract violations, or at most one commutation and the promotion check. -/
theorem sampleStarting_cases {s : State} (hf : s.regs.fault = 0) (vbus : Volt) :
    (5 < s.regs.sector.toNat ∧ s.sampleStarting vbus = s.raiseFault faultSectorRange) ∨
      (s.regs.sector.toNat ≤ 5 ∧ s.regs.dsel = 3 ∧ s.sampleStarting vbus = s.raiseFault faultDselInvalid) ∨
      (s.regs.sector.toNat ≤ 5 ∧ ∃ p, phaseOfCode s.regs.dsel = some p ∧
        ((s.commutesOn p vbus = true ∧ s.sampleStarting vbus =
            (s.commutateTo (nextSector s.regs.direction s.regs.sector) s.ports.nowMs).promoteCheck) ∨
          (s.commutesOn p vbus = false ∧ s.sampleStarting vbus = s.promoteCheck))) := by
  rcases Nat.lt_or_ge 5 s.regs.sector.toNat with h | h
  · exact .inl ⟨h, by simp [State.sampleStarting, h]⟩
  · cases hd : phaseOfCode s.regs.dsel with
    | none =>
      exact .inr (.inl ⟨h, (phaseOfCode_eq_none_iff _).mp hd, by simp [State.sampleStarting, Nat.not_lt.mpr h, hd]⟩)
    | some p =>
      refine .inr (.inr ⟨h, p, rfl, ?_⟩)
      rw [sampleStarting_of_legal h hd hf]
      cases hc : s.commutesOn p vbus <;> simp

end Sys2Proof.Laws
end

