-- ==== Sys2Proof/Laws/PerInstr.lean ====
section
/-! SUPPORT. The family TableRow: a well-formed operation's command word lies in its own row of the opcode table. -/

namespace Sys2Proof.Laws.TableRow

/-- The row of the opcode table an operation belongs to, as the row's match and mask on the opcode field (30_encoding.md
R53, R102); an event or internal operation has none. -/
def row : Instr → Option (Opcode × Opcode)
  | .nop => some (0x0, 0xF)
  | .init => some (0x1, 0xF)
  | .start => some (0x2, 0xF)
  | .stop => some (0x3, 0xF)
  | .setDir _ => some (0x4, 0xF)
  | .setDuty _ => some (0x5, 0xF)
  | .getState => some (0x6, 0xF)
  | .lock _ => some (0x7, 0xF)
  | .reserved _ _ => some (0x8, 0x8)
  | .sample _ _ _ _ | .reset | .resolveSector | .commutate _ => none

/-- The encoding of a well-formed operation matches its row, and an operation without a row has no encoding. -/
def Statement (i : Instr) : Prop :=
  i.wellFormed = true →
    match encode i, row i with
    | some w, some (value, mask) => opField w &&& mask = value
    | none, none => True
    | _, _ => False

theorem nop : Statement .nop := by intro _; simp [encode, row]
theorem init : Statement .init := by intro _; simp [encode, row]
theorem start : Statement .start := by intro _; simp [encode, row]
theorem stop : Statement .stop := by intro _; simp [encode, row]
theorem setDir (dir : Direction) : Statement (.setDir dir) := by intro _; simp [encode, row]
theorem setDuty (duty : Duty) : Statement (.setDuty duty) := by intro _; simp [encode, row]
theorem getState : Statement .getState := by intro _; simp [encode, row]
theorem lock (till : Millis) : Statement (.lock till) := by intro _; simp [encode, row]
theorem reserved (op : Opcode) (arg : Arg) : Statement (.reserved op arg) := by
  have key : ∀ op : Opcode, op.getLsbD 3 = true → op &&& 0x8 = 0x8 := by decide
  intro h
  simpa [encode, row] using key op h
theorem sample (va vb vc vbus : Volt) : Statement (.sample va vb vc vbus) := by intro _; simp [encode, row]
theorem reset : Statement .reset := by intro _; simp [encode, row]
theorem resolveSector : Statement .resolveSector := by intro _; simp [encode, row]
theorem commutate (t : Millis) : Statement (.commutate t) := by intro _; simp [encode, row]

end Sys2Proof.Laws.TableRow
end

