-- ==== Sys2Proof/Tests/Slice0.lean ====
section
/-! SUPPORT. Tests with expected values from 95_test_vectors.md and 30_encoding.md R64, the WellFormed smoke test, and one witness for every statement with hypotheses. -/

namespace Sys2Proof.Tests

open Machine

/-! ## Helpers: the vectors' conventions (START_DUTY = 4096 is the vectors' own instantiation) -/

/-- The vectors' parameters; the OPEN Hall tables hold 6 everywhere. -/
def params : Params where
  phaseTable := .canonical
  hallTables := Vector.replicate 11 ⟨Vector.replicate 6 6⟩
  startDuty := 4096
  promote := .never
  timeCmp := .wrapSafe
  reservedOp := .nop

/-- An idle frame at time `t`. -/
def frameAt (t : Millis) : Ports := { Ports.resetFrame with rst := false, nowMs := t }

/-- A frame with a command word. -/
def withCmd (w : CmdWord) (p : Ports) : Ports := { p with cmdValid := true, cmdWord := w }

/-- A frame with a sample set. -/
def withSample (va vb vc vbus : Volt) (p : Ports) : Ports :=
  { p with sampleValid := true, adcVa := va, adcVb := vb, adcVc := vc, adcVbus := vbus }

/-- Stopped after a sensorless reset, the frame of the coming step pending and its inputs sampled for `exec`. -/
def stopped (p : Ports) : State := { State.resetWith params with pwmEvents := [], ports := p, pendingInputs := [p] }

/-- The same with other registers, handed in. -/
def having (p : Ports) (f : Regs → Regs) : State := { stopped p with regs := f (stopped p).regs }

/-- Starting, Forward, in a sector with a selector and a last commutation time, at duty 4096. -/
def starting (sec : Sector) (dsel : PhaseCode) (last : Millis) (p : Ports) : State :=
  having p fun r =>
    { r with state := .starting, sector := sec, dsel := dsel, lastCommutationTime := last, dutyCycle := 4096 }

/-- The state an outcome goes on with, if any. -/
def after? (o : Host.Outcome State Fault Refusal) : Option State :=
  match o with
  | .next s => some s
  | .fault _ => none
  | .refused _ => none

/-! ## WellFormed -/

theorem test_reserved_opcode_is_wellFormed : (Instr.reserved 0xA 7).wellFormed = true := by decide
theorem test_unreserved_opcode_is_refused : (Instr.reserved 0x2 7).wellFormed = false := by decide

/-! ## Decoding: words written out from R52 to R54 as argument bits and opcode bits -/

theorem test_decode_nop : decode 0x000000000 = .nop := by decide
theorem test_decode_init : decode 0b000000000000000000000000000000000001 = .init := by decide
theorem test_decode_start_ignores_argument : decode 0x123456782 = .start := by decide
theorem test_decode_stop : decode 0b000000000000000000000000000000000011 = .stop := by decide
theorem test_decode_set_dir_ignores_upper_bits : decode 0xFFFFFFF14 = .setDir .reverse := by decide
theorem test_decode_set_duty_ignores_upper_bits : decode 0xABCD12345 = .setDuty 0x1234 := by decide
theorem test_decode_get_state : decode 0x000000006 = .getState := by decide
theorem test_decode_lock_bits : decode 0b000000000000000000100000000000000111 = .lock 0b10000000000000 := by decide
theorem test_decode_reserved : decode 0x00000000A = .reserved 0xA 0 := by decide
theorem test_encode_lock : encode (.lock 0x2000) = some 0x000020007 := by decide
theorem test_encode_set_duty : encode (.setDuty 65535) = some 0x0000FFFF5 := by decide
theorem test_table_word_one_byte : decodeTableWord 8 0x3 = some .stop := by decide
theorem test_table_word_too_wide : decodeTableWord 40 (2 ^ 36) = none := by decide
theorem test_hall_table_entry_at_a_pin_code : hallEntry hallTable0 (hallCode 0b110) = 4 := by decide

/-! ## Reset and INIT -/

/-- V-S1: reset with table 0 and Hall code 0b011 resolves sector 2. -/
theorem test_reset_resolves_hall :
    (after? (exec .reset (stopped { frameAt 0 with cfgSensorKind := 1, hallIn := 0b011 }))).map (·.regs.sector) =
      some 2 := by decide

/-- V-F3: reset clears the fault. -/
theorem test_reset_clears_fault :
    (after? (exec .reset (having (frameAt 7) fun r => { r with fault := 1, state := .starting, sector := 6 }))).map
      (fun t => (t.regs.fault, t.regs.state, t.regs.sector)) = some (0, .stopped, 0) := by decide

/-- V-G13: INIT while Starting stops, loads table 0 and resolves `HDT[6]` = 4; DSEL and the duty stay. -/
theorem test_init_while_starting :
    (after? (exec .init (starting 1 1 10 { frameAt 20 with cfgSensorKind := 1, hallIn := 0b110 }))).map
      (fun t => (t.regs.state, t.regs.sector, t.regs.dsel, t.regs.dutyCycle)) = some (.stopped, 4, 1, 4096) := by decide

/-- 93 I10: `cfg_hall_sel` 12 is refused. -/
theorem test_init_refuses_selection_12 :
    exec .init (stopped { frameAt 0 with cfgHallSel := 12 }) = .refused (.hallSelect 12) := rfl

/-! ## START, STOP, LOCK -/

/-- V-H7: Hall code 0b110 starts from sector 4 into sector 5. -/
theorem test_start_from_hall :
    (after? (exec .start (having { frameAt 5 with hallIn := 0b110 } fun r => { r with sk := .hall }))).map
      (fun t => (t.regs.sector, t.regs.dsel, t.pwmEvents)) =
      some (5, 0, [⟨.a, .dormant, 4096⟩, ⟨.c, .driven, 34815⟩, ⟨.b, .driven, 30719⟩]) := by decide

/-- P3, step @10: a reverse sensorless START drives sector 5 and records both times. -/
theorem test_start_reverse :
    (after? (exec .start (having (frameAt 10) fun r => { r with cmdDir := .reverse }))).map
      (fun t => (t.regs.sector, t.regs.direction, t.regs.startTime, t.regs.lastCommutationTime)) =
      some (5, .reverse, 10, 10) := by decide

/-- V-G6: STOP in Starting. -/
theorem test_stop_in_starting :
    (after? (exec .stop (starting 3 2 50 (frameAt 60)))).map (fun t => (t.regs.state, t.regs.sector, t.pwmEvents)) =
      some (.stopped, 3, [⟨.a, .dormant, 0⟩, ⟨.b, .dormant, 0⟩, ⟨.c, .dormant, 0⟩]) := by decide

/-- V-G12: LOCK in Locked re-arms the lockout. -/
theorem test_lock_rearms :
    (after? (exec (.lock 0x2000) (having (frameAt 60) fun r => { r with state := .locked, lockUntilTime := 7 }))).map
      (fun t => (t.regs.state, t.regs.lockUntilTime)) = some (.locked, 0x2000) := by decide

/-! ## The command interface -/

/-- V-Q2, its command: SET_DIR while Starting leaves the latched direction. -/
theorem test_set_dir_leaves_direction :
    (after? (exec (.setDir .reverse) (starting 1 1 100 (frameAt 101)))).map (fun t => (t.regs.cmdDir, t.regs.direction)) =
      some (.reverse, .forward) := by decide

/-- V-Q3: SET_DUTY leaves the applied duty. -/
theorem test_set_duty_leaves_dutyCycle :
    (after? (exec (.setDuty 65535) (starting 1 1 100 (frameAt 101)))).map (fun t => (t.regs.cmdDuty, t.regs.dutyCycle)) =
      some (65535, 4096) := by decide

/-- V-Q4: GET_STATE from Stopped, Starting, Running and Locked. -/
theorem test_get_state :
    [MotorState.stopped, .starting, .running, .locked].map (fun m =>
      (after? (exec .getState (having (frameAt 101) fun r => { r with state := m }))).map (·.outputs.rspState)) =
      [some 0, some 1, some 2, some 3] := by decide

/-- V-H9: with the strap 0 the Hall pins are not read at reset. -/
theorem test_reset_sensorless_ignores_hall :
    (after? (exec .reset (stopped { frameAt 0 with cfgSensorKind := 0, hallIn := 0b011 }))).map
      (fun t => (t.regs.sk, t.regs.sector)) = some (.sensorless, 0) := by decide

/-- V-Q1 and V-Q5: NOP and a reserved command change nothing. -/
theorem test_nop : exec .nop (starting 1 1 0 (frameAt 5)) = .next (starting 1 1 0 (frameAt 5)) := rfl
theorem test_reserved_nop : exec (.reserved 0xA 0) (stopped (frameAt 1)) = .next (stopped (frameAt 1)) := rfl

/-- V-Q7: a reserved command under REFUSE. -/
theorem test_reserved_refused :
    step { stopped (withCmd 0xA (frameAt 1)) with params := { params with reservedOp := .refuse } } =
      .refused (.reservedOpcode 0xA) := rfl

/-! ## The internal operations -/

/-- V-H3: code 0b010 is sector 3 in table 0. -/
theorem test_resolve_sector :
    (after? (exec .resolveSector (having { frameAt 0 with hallIn := 0b010 } fun r => { r with sk := .hall }))).map
      (·.regs.sector) = some 3 := by decide

/-- V-C12: Reverse from sector 5. -/
theorem test_commutate_reverse :
    (after? (exec (.commutate 7) (having (frameAt 7) fun r =>
      { r with state := .starting, sector := 5, direction := .reverse, dutyCycle := 4096 }))).map
      (fun t => (t.regs.sector, t.regs.lastCommutationTime, t.pwmEvents)) =
      some (4, 7, [⟨.b, .dormant, 4096⟩, ⟨.c, .driven, 34815⟩, ⟨.a, .driven, 30719⟩]) := by decide

/-- V-C14 and V-C19: the other phase table, and no time recorded outside Starting. -/
theorem test_commutate_parity_matched_running :
    (after? (exec (.commutate 7)
      { having (frameAt 7) (fun r => { r with state := .running, sector := 1, dutyCycle := 4096 }) with
        params := { params with phaseTable := .parityMatched } })).map
      (fun t => (t.regs.sector, t.regs.dsel, t.regs.lastCommutationTime, t.pwmEvents)) =
      some (2, 1, 0, [⟨.b, .dormant, 4096⟩, ⟨.c, .driven, 34815⟩, ⟨.a, .driven, 30719⟩]) := by decide

/-- V-D5: an odd duty. -/
theorem test_duty_split_odd : (highSideDuty 12345, lowSideDuty 12345) = (38939, 26595) := by decide

/-! ## SAMPLE: steps with a pending sample frame -/

/-- V-Z1 and V-Z2: the comparison is strict. -/
theorem test_zero_cross_below :
    (after? (step (starting 1 1 1000 (withSample 0 499 0 1000 (frameAt 1001))))).map
      (fun t => (t.regs.sector, t.regs.dsel, t.regs.lastCommutationTime, t.pwmEvents.length)) = some (2, 0, 1001, 3) := by
  decide
theorem test_zero_cross_equal :
    (after? (step (starting 1 1 1000 (withSample 0 500 0 1001 (frameAt 1001))))).map (·.regs.sector) = some 1 := by decide

/-- V-Z14: zero crossing and watchdog together commutate once. -/
theorem test_both_conditions_commutate_once :
    (after? (step (starting 1 1 1000 (withSample 0 0 0 1000 (frameAt 1026))))).map
      (fun t => (t.regs.sector, t.pwmEvents.length)) = some (2, 3) := by decide

/-- V-W1 and V-W2: 25 ms do not fire, 26 ms do. -/
theorem test_watchdog_strict :
    (watchdog .wrapSafe 1025 1000, watchdog .wrapSafe 1026 1000, watchdog .raw 1025 1000, watchdog .raw 1026 1000) =
      (false, true, false, true) := by decide

/-- V-W5, V-W8 and V-W9: across the wrap and at 2^31. -/
theorem test_watchdog_wrap :
    (watchdog .wrapSafe 0xFFFFFFF5 0xFFFFFFF0, watchdog .raw 0xFFFFFFF5 0xFFFFFFF0, watchdog .wrapSafe 0x80000018 0,
      watchdog .wrapSafe 0x80000019 0) = (false, true, true, false) := by decide

/-- V-L4 and V-L5: the lockout across the wrap. -/
theorem test_lockout_wrap :
    (after .wrapSafe 0xFFFFFFF0 0x10, after .raw 0xFFFFFFF0 0x10, after .wrapSafe 0x5 0xFFFFFFF0,
      after .raw 0x5 0xFFFFFFF0) = (false, true, true, false) := by decide

/-- V-G14: a PROMOTE that holds. -/
theorem test_promote :
    (after? (step { starting 1 1 100 (withSample 0 600 0 1000 (frameAt 101)) with
      params := { params with promote := .always } })).map (fun t => (t.regs.state, t.pwmEvents)) =
      some (.running, []) := by decide

/-! ## The arbiter and the faults -/

/-- V-A1: START and SAMPLE in one step commutate twice. -/
theorem test_start_and_sample :
    (after? (step (stopped (withCmd 0x2 (withSample 0 400 0 1000 (frameAt 100)))))).map
      (fun t => (t.regs.sector, t.regs.dsel, t.pwmEvents.map (·.phase))) = some (2, 0, [.b, .a, .c, .a, .b, .c]) := by decide

/-- V-A4: reset drops the command and the sample. -/
theorem test_reset_preempts :
    (after? (step (starting 2 0 0 { withCmd 0x2 (withSample 5 5 5 10 (frameAt 70)) with rst := true }))).map
      (fun t => (t.regs.state, t.regs.sector, t.regs.v, t.pwmEvents.length)) = some (.stopped, 0, ⟨0, 0, 0⟩, 3) := by decide

/-- V-F1: an illegal sector in Starting; the refresh stands. -/
theorem test_sector_range_fault :
    (after? (step (starting 6 1 0 (withSample 1 2 3 1000 (frameAt 5))))).map
      (fun t => (t.regs.v, t.regs.fault, t.regs.state, t.regs.sector, t.pwmEvents)) =
      some (⟨1, 2, 3⟩, 1, .starting, 6, [⟨.a, .dormant, 0⟩, ⟨.b, .dormant, 0⟩, ⟨.c, .dormant, 0⟩]) := by decide

/-- V-F2: a halted block ignores its inputs. -/
theorem test_halt :
    (after? (step (having (withCmd 0x3 (withSample 9 9 9 9 (frameAt 6))) fun r =>
      { r with state := .starting, fault := 1 }))).map (fun t => (t.regs.state, t.regs.v, t.pwmEvents)) =
      some (.starting, ⟨0, 0, 0⟩, []) := by decide

/-- V-F4 and V-F5: the sector check comes first. -/
theorem test_dsel_fault :
    (after? (step (starting 2 3 0 (withSample 0 0 0 0 (frameAt 5))))).map (·.regs.fault) = some 2 := by decide
theorem test_sector_check_comes_first :
    (after? (step (starting 7 3 0 (withSample 0 0 0 0 (frameAt 5))))).map (·.regs.fault) = some 1 := by decide

/-- The first step after reset runs a placed word (V-E3, START). -/
theorem test_first_step_runs_the_placed_word :
    (after? (step (State.reset.withFetchWord 8 2))).map (·.regs.state) = some .starting := by decide

/-! ## The step notation -/

/-- R62 and R63: `START REV` at 10 after a line with `hall=011` keeps that input and presents 0x14, then 0x2. -/
theorem test_start_rev_frames :
    (frames { Ports.zero with hallIn := 0b011 } (startToward .reverse 10)).map
      (fun p => (p.cmdValid, p.cmdWord, p.sampleValid, p.hallIn, p.nowMs)) =
      [(true, 0x14, false, 0b011, 10), (true, 0x2, false, 0b011, 10)] := by decide

/-- R62: `@0 RESET cfg=HALL,0`. -/
theorem test_reset_line :
    StepLine.frame Ports.zero { now := 0, cfg := some (.hall, 0), reset := true } =
      { Ports.resetFrame with cfgSensorKind := 1 } := by decide

/-- R63: IDLE presents nothing. -/
theorem test_idle_line : frames Ports.zero (idleLine 5) = [frameAt 5] := by decide

/-! ## Configurations -/

/-- A configuration given to the model: CANONICAL and table 0 throughout. -/
def rawConfig : RawConfig where
  phaseTable := rawPhaseTable .canonical
  hallTables := Vector.replicate 11 hallTable0
  startDuty := 4096
  promote := .never
  timeCmp := .raw
  reservedOp := .nop

/-- The same with the dormant column of row 0 and row 1 spoilt. -/
def spoiltConfig : RawConfig := { rawConfig with phaseTable := (rawPhaseTable .canonical).set 1 ⟨0, 1, 2⟩ }

theorem test_configure_runs : (after? (State.configure rawConfig)).map (·.params.timeCmp) = some .raw := by decide
theorem test_configure_refuses_a_seven :
    State.configure { rawConfig with hallTables := (Vector.replicate 11 hallTable0).set 4 (hallTable0.set 3 7) } =
      .refused (.hallTable 5) := rfl

/-! ## Witnesses: the hypotheses of every statement that has some, met together -/

theorem test_witness_DecodeOfEncodeIsTheInstruction :
    (Instr.reserved 0x8 5).wellFormed = true ∧ encode (.reserved 0x8 5) = some 0x58 := by decide
theorem test_witness_EveryWordSelectsItsOpcodeRow :
    (0x10#36).toNat % 16 = 0 ∧ (0xFFFFFFFF7#36).toNat % 16 = 7 ∧ 8 ≤ (0x8#36).toNat % 16 := by decide
theorem test_witness_UnusedArgumentBitsAreIgnored :
    opField 0x14 = opField 0xFFFFFFF14 ∧ (opField 0x14).toNat = 4 ∧ (0x14#36).getLsbD 4 = (0xFFFFFFF14#36).getLsbD 4 ∧
      opField 0x000012345 = opField 0xABCD12345 ∧ (opField 0x000012345).toNat = 5 ∧
      (∀ k : Fin 20, 4 ≤ k.val → (0x000012345#36).getLsbD k = (0xABCD12345#36).getLsbD k) ∧
      opField 0x2 = opField 0x123456782 ∧ (opField 0x2).toNat ≤ 3 ∧ (opField 0x6).toNat = 6 := by decide
theorem test_witness_StepRunsTheFetchedCommand :
    (stopped (frameAt 1)).regs.fault = 0 ∧ decodeTableWord 36 0x000020007 = some (.lock 0x2000) := by decide

/-- Each clause of the arbiter's statement has a frame and a state: reset, halt, idle, sample, command, both. -/
theorem test_witness_StepIsTheArbiter :
    Ports.resetFrame.rst = true ∧ (frameAt 1).rst = false ∧ (starting 6 1 0 (frameAt 1)).regs.fault = 0 ∧
      (having (frameAt 1) fun r => { r with fault := 2 }).regs.fault ≠ 0 ∧
      (frameAt 1).cmdValid = false ∧ (frameAt 1).sampleValid = false ∧ (withSample 0 0 0 0 (frameAt 1)).sampleValid = true ∧
      (withCmd 0x2 (withSample 0 0 0 0 (frameAt 1))).cmdValid = true := by decide

/-- A START that resolves a 7 ends in a fault, so the SAMPLE of its step does not run; a refused command ends the run. -/
theorem test_witness_StepIsTheArbiter_fault :
    (after? (exec .start (having (frameAt 1) fun r =>
      { r with sk := .hall, hdt := Vector.replicate 8 7 }))).map (·.regs.fault) = some 1 := by decide
theorem test_witness_StepIsTheArbiter_refused :
    exec (decode 0x1) (stopped { frameAt 0 with cfgHallSel := 15 }) = .refused (.hallSelect 15) := rfl

theorem test_witness_IdleStepChangesNothing :
    (stopped (frameAt 9)).nextPorts.rst = false ∧ (stopped (frameAt 9)).nextPorts.cmdValid = false ∧
      (stopped (frameAt 9)).nextPorts.sampleValid = false := by decide
theorem test_witness_HaltedBlockDoesNothing :
    (having (withCmd 0x3 (frameAt 6)) fun r => { r with fault := 3 }).regs.fault ≠ 0 ∧
      (having (withCmd 0x3 (frameAt 6)) fun r => { r with fault := 3 }).nextPorts.rst = false ∧
      (after? (step (having Ports.resetFrame fun r => { r with fault := 3 }))).map (·.regs.fault) = some 0 := by decide
theorem test_witness_NopIsIdle :
    (stopped (frameAt 1)).regs.fault = 0 ∧ params.promote ≠ .designed ∧
      (withCmd 0xFFFFFFFF0 (withSample 1 2 3 4 (frameAt 1))).rst = false ∧
      (withCmd 0xFFFFFFFF0 (withSample 1 2 3 4 (frameAt 1))).cmdValid = true ∧ (opField 0xFFFFFFFF0).toNat = 0 := by decide
theorem test_witness_SetDirWritesCmdDir :
    (starting 1 1 0 (frameAt 1)).regs.fault = 0 ∧ (opField 0x14).toNat = 4 ∧ (0x14#36).getLsbD 4 = true := by decide
theorem test_witness_SetDutyWritesCmdDuty :
    (starting 1 1 0 (frameAt 1)).regs.fault = 0 ∧ (opField 0xFFFFFFFF5).toNat = 5 := by decide
theorem test_witness_GetStateAnswersTheState :
    (having (withCmd 0x6 (withSample 0 0 0 0 (frameAt 60))) fun r => { r with state := .locked }).regs.fault = 0 ∧
      (having (withCmd 0x6 (withSample 0 0 0 0 (frameAt 60))) fun r => { r with state := .locked }).nextPorts.cmdValid = true ∧
      (opField 0x6).toNat = 6 ∧ (frameAt 60).rst = false := by decide
theorem test_witness_ReservedOpcodesFollowThePolicy :
    (stopped (frameAt 1)).regs.fault = 0 ∧ params.reservedOp = .nop ∧ { params with reservedOp := .refuse }.reservedOp = .refuse ∧
      (stopped (withCmd 0x8 (withSample 1 2 3 4 (frameAt 2)))).nextPorts.cmdWord.getLsbD 3 = true ∧
      (stopped (withCmd 0x8 (withSample 1 2 3 4 (frameAt 2)))).nextPorts.sampleValid = true := by decide
theorem test_witness_InitResult :
    (starting 1 1 0 (frameAt 1)).regs.fault = 0 ∧
      hallTables params (starting 1 1 0 (frameAt 1)).ports.cfgHallSel = some hallTable0 ∧
      (hallTables params 11).isSome = true := by decide

/-- Both ends of START's hypothesis: sector 0 kept, and sector 5 from the Hall table. -/
theorem test_witness_StartFromStopped :
    (stopped (frameAt 5)).regs.fault = 0 ∧ (stopped (frameAt 5)).regs.state = .stopped ∧ (0 : Nat) ≤ 5 ∧
      0 = (if (stopped (frameAt 5)).regs.sk = .hall ∧
        hallEntry (stopped (frameAt 5)).regs.hdt (stopped (frameAt 5)).ports.hallIn ≠ 6 then
          (hallEntry (stopped (frameAt 5)).regs.hdt (stopped (frameAt 5)).ports.hallIn).toNat else 0) ∧
      5 = (hallEntry hallTable0 0b100).toNat := by decide
theorem test_witness_StartTowardLatchesTheDirection :
    (stopped (frameAt 5)).regs.fault = 0 ∧ (stopped (frameAt 5)).regs.state = .stopped ∧
      (stopped (frameAt 5)).regs.sk = .sensorless := by decide
theorem test_witness_StartElsewhereIsIgnored :
    (starting 3 2 50 (frameAt 60)).regs.fault = 0 ∧ (starting 3 2 50 (frameAt 60)).regs.state ≠ .stopped := by decide
theorem test_witness_StopIsTotalAndIdempotent :
    (starting 3 2 50 (frameAt 60)).regs.fault = 0 ∧ (opField 0xFFFFFFFF3).toNat = 3 := by decide
theorem test_witness_LockEntersLocked :
    (starting 3 2 50 (frameAt 60)).regs.fault = 0 ∧ (opField 0xFFFFFFFF7).toNat = 7 := by decide
theorem test_witness_ResetResult :
    hallTables params (having (frameAt 7) fun r => { r with fault := 1 }).ports.cfgHallSel = some hallTable0 := by decide
theorem test_witness_HallTablesHoldTheSentinel :
    (0#4).toNat = 0 ∧ (1#4).toNat = (0 : Fin 11).val + 1 ∧ (11#4).toNat = (10 : Fin 11).val + 1 ∧ 12 ≤ (12#4).toNat ∧
      (hallTables params 11).isSome = true := by decide
theorem test_witness_BadSelectionIsRefused :
    12 ≤ (stopped { frameAt 0 with cfgHallSel := 12 }).ports.cfgHallSel.toNat ∧
      (stopped { frameAt 0 with cfgHallSel := 12 }).regs.fault = 0 := by decide

/-- The three clauses: a valid code, an invalid code, and no Hall sensor. -/
theorem test_witness_ResolveSectorResult :
    (stopped (frameAt 0)).regs.fault = 0 ∧
      (having { frameAt 0 with hallIn := 0b110 } fun r => { r with sk := .hall }).regs.sk = .hall ∧
      (hallEntry (stopped (frameAt 0)).regs.hdt 0b110).toNat ≤ 5 ∧
      (hallEntry (stopped (frameAt 0)).regs.hdt 0b100).toNat = 5 ∧ hallEntry (stopped (frameAt 0)).regs.hdt 0 = 6 ∧
      (stopped (frameAt 0)).regs.sk = .sensorless := by decide
theorem test_witness_InvalidHallCodesAreIgnoredAfterInit :
    (stopped { frameAt 0 with cfgSensorKind := 1, cfgHallSel := 11 }).regs.fault = 0 ∧
      (after? (exec .init (stopped { frameAt 0 with cfgSensorKind := 1, cfgHallSel := 11 }))).isSome = true ∧
      ({ frameAt 0 with hallIn := 7 }).hallIn = 7 := by decide
theorem test_witness_HandedInSevenIsWrittenToTheSector :
    (having (frameAt 1) fun r => { r with sk := .hall, hdt := Vector.replicate 8 7 }).regs.fault = 0 ∧
      (having (frameAt 1) fun r => { r with sk := .hall, hdt := Vector.replicate 8 7 }).regs.sk = .hall ∧
      hallEntry (Vector.replicate 8 7) (frameAt 1).hallIn = 7 ∧ (stopped (frameAt 1)).regs.state = .stopped := by decide
theorem test_witness_CommutateResult :
    (starting 5 0 0 (frameAt 7)).regs.fault = 0 ∧ Driving (starting 5 0 0 (frameAt 7)).regs ∧
      Driving (having (frameAt 7) fun r => { r with state := .running }).regs ∧
      (starting 5 0 0 (frameAt 7)).regs.sector.toNat ≤ 5 := by decide
theorem test_witness_CommutateOutsideItsPrecondition :
    (stopped (frameAt 7)).regs.fault = 0 ∧ ¬ Driving (stopped (frameAt 7)).regs ∧
      ¬ Driving (having (frameAt 7) fun r => { r with state := .locked }).regs ∧
      (stopped (frameAt 7)).regs.sector.toNat ≤ 5 := by decide
theorem test_witness_SixCommutationsAreOneRevolution :
    (starting 5 0 0 (frameAt 7)).regs.sector.toNat ≤ 5 ∧ 0 < 5 ∧ 5 < 6 ∧
      (after? (execTimes (.commutate 7) 5 (starting 5 0 0 (frameAt 7)))).isSome = true := by decide
theorem test_witness_ConfigurationsAreRefusedByTheirTables :
    RawPhaseTable.Admitted rawConfig.phaseTable ∧ (∀ k : Fin 11, HallAdmitted rawConfig.hallTables[k]) ∧
      ¬ RawPhaseTable.Admitted spoiltConfig.phaseTable := by decide
theorem test_witness_SampleOnlyRefreshesOutsideStartingAndLocked :
    (stopped (frameAt 1)).regs.fault = 0 ∧ (stopped (frameAt 1)).regs.state = .stopped ∧
      (having (frameAt 1) fun r => { r with state := .running }).regs.state = .running := by decide

/-- The lockout's boundary, V-L1 and V-L2: not expired at its end, expired one millisecond later. -/
theorem test_witness_LockoutExpiresInASample :
    (having (frameAt 5000) fun r => { r with state := .locked, lockUntilTime := 5000 }).regs.fault = 0 ∧
      (having (frameAt 5000) fun r => { r with state := .locked, lockUntilTime := 5000 }).regs.state = .locked ∧
      ¬ 0 < ((5000 : Millis) - 5000).toNat ∧ 0 < ((5001 : Millis) - 5000).toNat ∧ ((5001 : Millis) - 5000).toNat < 2 ^ 31 := by
  decide

/-- Boundary samples of each clause: below, equal and above half the bus, in an odd and in an even sector. -/
theorem test_witness_SampleInStartingResult :
    (starting 1 1 1000 (frameAt 1001)).regs.fault = 0 ∧ (starting 1 1 1000 (frameAt 1001)).regs.state = .starting ∧
      (starting 1 1 1000 (frameAt 1001)).regs.sector.toNat ≤ 5 ∧ (starting 1 1 1000 (frameAt 1001)).regs.dsel = phaseCode .b ∧
      (1#3).toNat % 2 = 1 ∧ (499#16).toNat < (1000#16).toNat / 2 ∧ ¬ (500#16).toNat < (1001#16).toNat / 2 ∧
      (0#3).toNat % 2 = 0 ∧ (1000#16).toNat / 2 < (501#16).toNat ∧
      after params.timeCmp 1026 (1000 + 25) = true ∧ after params.timeCmp 1025 (1000 + 25) = false := by decide
theorem test_witness_ContractViolationsRaiseTheirFault :
    (starting 6 1 0 (frameAt 5)).regs.fault = 0 ∧ 5 < (starting 6 1 0 (frameAt 5)).regs.sector.toNat ∧
      (starting 6 1 0 (frameAt 5)).regs.state = .starting ∧ (starting 5 3 0 (frameAt 5)).regs.sector.toNat ≤ 5 ∧
      (starting 5 3 0 (frameAt 5)).regs.dsel = 3 := by decide

/-- Each of the three ways to end with a fault is met. -/
theorem test_witness_OnlyContractViolationsRaiseFaults :
    (after? (exec (.commutate 1) (starting 6 1 0 (frameAt 5)))).map (·.regs.fault) = some 1 ∧
      (after? (exec .start (having (frameAt 1) fun r =>
        { r with sk := .hall, hdt := Vector.replicate 8 7 }))).map (·.regs.fault) = some 1 ∧
      (after? (exec (.sample 0 0 0 0) (starting 5 3 0 (frameAt 5)))).map (·.regs.fault) = some 2 := by decide
theorem test_witness_EveryOperationKeepsItsFrame :
    (after? (exec (.sample 1 2 3 4) (starting 1 1 0 (frameAt 5)))).isSome = true := by decide
theorem test_witness_StateChangesOnlyAlongItsEdges :
    (after? (exec .start (stopped (frameAt 5)))).map (fun t => decide (t.regs.state ≠ .stopped)) = some true := by decide
theorem test_witness_LockedIsEnteredOnlyByLock :
    (stopped (withCmd 0x20007 (frameAt 5))).regs.state ≠ .locked ∧
      (after? (step (stopped (withCmd 0x20007 (frameAt 5))))).map (·.regs.state) = some .locked := by decide
theorem test_witness_RunningIsNotEnteredByDefault :
    (starting 1 1 0 (withSample 0 0 0 0 (frameAt 5))).params.promote = .never ∧
      (starting 1 1 0 (withSample 0 0 0 0 (frameAt 5))).regs.state ≠ .running ∧
      (after? (step (starting 1 1 0 (withSample 0 0 0 0 (frameAt 5))))).isSome = true := by decide
theorem test_witness_DirectionAndDutyAreLatchedWhileDriving :
    Driving (starting 1 1 0 (withCmd 0x14 (frameAt 5))).regs ∧
      (starting 1 1 0 (withCmd 0x14 (frameAt 5))).nextPorts.rst = false ∧
      (after? (step (starting 1 1 0 (withCmd 0x14 (frameAt 5))))).isSome = true := by decide
theorem test_witness_StrapsMatterOnlyAtResetAndInit :
    (frameAt 5).rst = false ∧ ¬ ((withCmd 0x2 (frameAt 5)).cmdValid = true ∧ (opField 0x2).toNat = 1) ∧
      params.promote ≠ .designed ∧ (after? (step (stopped (withCmd 0x2 (frameAt 5))))).isSome = true := by decide

/-- SAMPLE under inputs that differ in all but the clock, and RESET under inputs that differ in the clock. -/
theorem test_witness_OperationsReadOnlyTheirInputs :
    params.promote ≠ .designed ∧
      (withCmd 0x5 { frameAt 5 with hallIn := 7, cfgHallSel := 13 }).nowMs = (starting 1 1 0 (frameAt 5)).ports.nowMs ∧
      (after? (exec (.sample 1 2 3 4) (starting 1 1 0 (frameAt 5)))).isSome = true ∧
      (frameAt 9).cfgSensorKind = (frameAt 5).cfgSensorKind ∧ (frameAt 9).cfgHallSel = (frameAt 5).cfgHallSel ∧
      (frameAt 9).hallIn = (frameAt 5).hallIn ∧ (after? (exec .reset (stopped (frameAt 5)))).isSome = true := by decide
theorem test_witness_CmdDutyAndStartTimeAreNeverRead :
    params.promote ≠ .designed ∧ (after? (exec .start (stopped (frameAt 5)))).isSome = true := by decide
theorem test_witness_PwmRegistersHoldTheLastWrites :
    (after? (step (stopped (withCmd 0x2 (withSample 0 400 0 1000 (frameAt 100)))))).map (·.pwmEvents.length) = some 6 := by
  decide

/-- A driven state with the invariant that a step goes on from. -/
theorem test_witness_EveryStepKeepsTheInvariant :
    (starting 1 1 1000 (withSample 0 499 0 1000 (frameAt 1001))).Inv ∧
      (after? (step (starting 1 1 1000 (withSample 0 499 0 1000 (frameAt 1001))))).isSome = true :=
  ⟨{ noFault := rfl
     sectorLegal := by decide
     dselLegal := by decide
     dselResolved := by intro _; decide
     hdtLegal := by decide
     dormantAtRest := fun h => absurd (.inl rfl) h }, by decide⟩
theorem test_witness_ResetStepEstablishesTheInvariant :
    (starting 7 3 0 Ports.resetFrame).nextPorts.rst = true ∧
      (after? (step (starting 7 3 0 Ports.resetFrame))).isSome = true := by decide

end Sys2Proof.Tests
end

section
/-! The family 10_state.md: the invariant of R31 and R78 along every step, the latched registers (R17 to R19), and the
two registers nothing reads (R19, R27). -/

namespace Sys2Proof.Proofs

open Machine Laws

/-! ## How a step is made of operations -/

/-- The operations a step can run: the commands, SAMPLE and RESET. The internal operations run only inside START and
SAMPLE; run alone they can break the invariant. -/
def Presented : Instr → Prop
  | .resolveSector | .commutate _ => False
  | _ => True

theorem presented_decode (w : CmdWord) : Presented (decode w) := by
  unfold decode
  split <;> trivial

theorem decode_ne_reset (w : CmdWord) : decode w ≠ .reset := by
  unfold decode
  split <;> simp

/-- What sampling the inputs and every presented operation keep, every step keeps. -/
theorem step_keeps {P : State → Prop} (hbegin : ∀ s, P s → P s.beginStep)
    (hexec : ∀ i s t, Presented i → P s → exec i s = .next t → P t) {s t : State} (hs : P s) (h : step s = .next t) :
    P t := by
  have hb := hbegin s hs
  rcases step_eq_next h with ⟨-, hr⟩ | ⟨-, -, rfl⟩ | ⟨-, -, u, hu, ht⟩
  · exact hexec .reset _ _ trivial hb hr
  · exact hb
  · have hPu : P u := by
      rcases runCommand_eq_next hu with ⟨-, he⟩ | ⟨-, rfl⟩
      · exact hexec _ _ _ (presented_decode _) hb he
      · exact hb
    rcases runSample_eq_next ht with ⟨-, -, he⟩ | ⟨-, rfl⟩
    · exact hexec (sampleInstr u.ports) _ _ trivial hPu he
    · exact hPu

/-! ## The invariant -/

/-- The invariant reads the parameters and five registers, and of `state` only whether the motor is driven. -/
theorem inv_congr {s t : State} (h : s.Inv) (hdriving : Driving t.regs ↔ Driving s.regs := by rfl)
    (hfault : t.regs.fault = s.regs.fault := by rfl) (hsector : t.regs.sector = s.regs.sector := by rfl)
    (hdsel : t.regs.dsel = s.regs.dsel := by rfl) (hhdt : t.regs.hdt = s.regs.hdt := by rfl)
    (hpwm : t.regs.pwm = s.regs.pwm := by rfl) (hparams : t.params = s.params := by rfl) : t.Inv where
  noFault := hfault ▸ h.noFault
  sectorLegal := hsector ▸ h.sectorLegal
  dselLegal := hdsel ▸ h.dselLegal
  dselResolved hd := by rw [hsector, hdsel, hparams]; exact h.dselResolved (hdriving.mp hd)
  hdtLegal := hhdt ▸ h.hdtLegal
  dormantAtRest hd := hpwm.trans (h.dormantAtRest (mt hdriving.mpr hd))

/-- At rest the selector need not belong to the sector's row. -/
theorem inv_of_atRest {s : State} (hrest : ¬ Driving s.regs) (hpwm : s.regs.pwm = dormantPwm) (hfault : s.regs.fault = 0)
    (hsector : s.regs.sector.toNat ≤ 5) (hdsel : s.regs.dsel ≠ 3) (hhdt : ∀ c, hallEntry s.regs.hdt c ≠ 7) : s.Inv :=
  ⟨hfault, hsector, hdsel, fun h => absurd h hrest, hhdt, fun _ => hpwm⟩

/-- A commutation of a driven motor makes sector and selector agree, whatever they were. -/
theorem inv_commutateTo {s : State} (hdriving : Driving s.regs) (hfault : s.regs.fault = 0)
    (hhdt : ∀ c, hallEntry s.regs.hdt c ≠ 7) (k : Fin 6) (time : Millis) : (s.commutateTo k time).Inv where
  noFault := hfault
  sectorLegal := sectorBits_le k
  dselLegal := phaseCode_ne_three _
  dselResolved _ j hj := by rw [sectorBits_injective j k hj]; rfl
  hdtLegal := hhdt
  dormantAtRest hrest := absurd hdriving hrest

/-- The INIT effect from a table without a 7 leaves a block at rest with a legal sector. -/
theorem inv_initWith {s : State} {table : HallEntries} (hfault : s.regs.fault = 0) (hdsel : s.regs.dsel ≠ 3)
    (htable : ∀ c, hallEntry table c ≠ 7) : (s.initWith table).Inv := by
  have hsector : (s.initWith table).regs.sector.toNat ≤ 5 :=
    resolveSector_sector_le (Nat.zero_le 5) htable
  rw [initWith_eq] at hsector ⊢
  exact inv_of_atRest (by simp) rfl hfault hsector hdsel htable

/-- Reset that goes on establishes the invariant from any state (R122, R123). -/
theorem inv_of_reset {s t : State} (h : exec .reset s = .next t) : t.Inv := by
  obtain ⟨table, htable, rfl⟩ := execReset_eq_next h
  exact inv_initWith rfl (phaseCode_ne_three _) (hallTables_ne_seven htable)

/-- START from Stopped resolves a legal sector, so its commutation goes through. -/
theorem inv_launch_commutate {s : State} (h : s.Inv) (time : Millis) :
    (s.launch.resolveSector.commutate time).Inv := by
  have hsector : s.launch.resolveSector.regs.sector.toNat ≤ 5 :=
    resolveSector_sector_le (Nat.zero_le 5) h.hdtLegal
  rw [commutate_of_legal hsector]
  apply inv_commutateTo <;> rw [resolveSector_eq]
  · exact .inl rfl
  · exact h.noFault
  · exact h.hdtLegal

/-- Promotion takes Starting to Running, and both are driven. -/
theorem inv_promoteCheck {s : State} (h : s.Inv) (hdriving : Driving s.regs) : s.promoteCheck.Inv := by
  rcases promoteCheck_cases s with ⟨-, e⟩ | ⟨-, e⟩ <;> rw [e]
  · exact inv_congr h (iff_of_true (.inr rfl) hdriving)
  · exact h

/-- A SAMPLE in Starting meets no contract violation. -/
theorem inv_sampleStarting {s : State} (h : s.Inv) (hstate : s.regs.state = .starting) (vbus : Volt) :
    (s.sampleStarting vbus).Inv := by
  have hdriving : Driving s.regs := .inl hstate
  rcases sampleStarting_cases h.noFault vbus with
    ⟨hsector, -⟩ | ⟨-, hdsel, -⟩ | ⟨-, p, -, ⟨-, e⟩ | ⟨-, e⟩⟩
  · exact absurd h.sectorLegal (Nat.not_le.mpr hsector)
  · exact absurd hdsel h.dselLegal
  · rw [e]
    exact inv_promoteCheck (inv_commutateTo hdriving h.noFault h.hdtLegal _ _) hdriving
  · rw [e]
    exact inv_promoteCheck h hdriving

/-- Lock expiry goes from rest to rest. -/
theorem inv_sampleLocked {s : State} (h : s.Inv) (hstate : s.regs.state = .locked) : s.sampleLocked.Inv := by
  rcases sampleLocked_cases s with ⟨-, e⟩ | ⟨-, e⟩ <;> rw [e]
  · exact inv_congr h (iff_of_false (by simp) (by simp [hstate]))
  · exact h

/-- Every presented operation keeps the invariant. -/
theorem exec_keeps_inv {i : Instr} {s t : State} (hi : Presented i) (h : s.Inv) (he : exec i s = .next t) : t.Inv := by
  rcases exec_eq_next he with ⟨hfault, -, -⟩ | ⟨-, heffect⟩
  · exact absurd h.noFault hfault
  cases i with
  | nop => exact heffect ▸ h
  | reserved op arg => exact heffect.2 ▸ h
  | setDir | setDuty | getState =>
    cases heffect
    exact inv_congr h
  | stop | lock =>
    cases heffect
    exact inv_of_atRest (by simp) rfl h.noFault h.sectorLegal h.dselLegal h.hdtLegal
  | init =>
    obtain ⟨table, htable, rfl⟩ := heffect
    exact inv_initWith h.noFault h.dselLegal (hallTables_ne_seven htable)
  | reset => exact inv_of_reset he
  | start =>
    rcases heffect with ⟨-, rfl⟩ | ⟨-, rfl⟩
    · exact inv_launch_commutate h _
    · exact h
  | sample va vb vc vbus =>
    have hfresh : (s.refresh va vb vc).Inv := inv_congr h
    rcases heffect with ⟨hstate, rfl⟩ | ⟨hstate, rfl⟩ | ⟨-, rfl⟩
    · exact inv_sampleLocked hfresh hstate
    · exact inv_sampleStarting hfresh hstate vbus
    · exact hfresh
  | resolveSector | commutate => exact hi.elim

/-- Settles O48: the invariant is inductive for the operations a step can run. -/
theorem everyStepKeepsTheInvariant : Obligations.EveryStepKeepsTheInvariant :=
  fun _ _ hs h => step_keeps (fun _ hinv => inv_congr hinv) (fun _ _ _ => exec_keeps_inv) hs h

/-- Settles O50: with `rst = 1` the arbiter runs RESET whatever the state holds. -/
theorem resetStepEstablishesTheInvariant : Obligations.ResetStepEstablishesTheInvariant := by
  intro s t hrst h
  rcases step_eq_next h with ⟨-, hr⟩ | ⟨hr, -⟩ | ⟨hr, -⟩
  · exact inv_of_reset hr
  all_goals simp [hrst] at hr

/-- Settles O49: the reset state is at rest, and the free parameters play no part there. -/
theorem resetStateHasTheInvariant : Obligations.ResetStateHasTheInvariant :=
  inv_of_atRest (s := State.reset) (by decide) rfl rfl (by decide) (by decide) (by decide)

/-! ## The registers a start latches -/

/-- The registers START latches for a start and stop cycle (R17 to R19). -/
def latched (s : State) : Direction × Duty × Millis := (s.regs.direction, s.regs.dutyCycle, s.regs.startTime)

@[simp] theorem latched_initWith (s : State) (table : HallEntries) : latched (s.initWith table) = latched s := by
  rw [initWith_eq]
  rfl

@[simp] theorem latched_resolveSector (s : State) : latched s.resolveSector = latched s := by
  rw [resolveSector_eq]
  rfl

@[simp] theorem latched_commutate (s : State) (time : Millis) : latched (s.commutate time) = latched s := by
  rcases commutate_cases s time with ⟨-, e⟩ | ⟨-, e⟩ <;> rw [e] <;> rfl

@[simp] theorem latched_promoteCheck (s : State) : latched s.promoteCheck = latched s := by
  rw [promoteCheck_eq]
  rfl

@[simp] theorem latched_sampleLocked (s : State) : latched s.sampleLocked = latched s := by
  rw [sampleLocked_eq]
  rfl

theorem latched_sampleStarting {s : State} (hfault : s.regs.fault = 0) (vbus : Volt) :
    latched (s.sampleStarting vbus) = latched s := by
  rcases sampleStarting_cases hfault vbus with ⟨-, e⟩ | ⟨-, -, e⟩ | ⟨-, p, -, ⟨-, e⟩ | ⟨-, e⟩⟩ <;> rw [e]
  · rfl
  · rfl
  · exact latched_promoteCheck _
  · exact latched_promoteCheck s

/-- Only reset and a START from Stopped write the latched registers. -/
theorem latched_exec {i : Instr} {s t : State} (hreset : i ≠ .reset) (hstart : i = .start → s.regs.state ≠ .stopped)
    (h : exec i s = .next t) : latched t = latched s := by
  rcases exec_eq_next h with ⟨-, -, rfl⟩ | ⟨hfault, heffect⟩
  · rfl
  replace hfault := hfault.resolve_right hreset
  cases i with
  | nop | stop | setDir | setDuty | getState | lock =>
    cases heffect
    rfl
  | reserved op arg => exact heffect.2 ▸ rfl
  | init =>
    obtain ⟨table, -, rfl⟩ := heffect
    exact latched_initWith s table
  | reset => exact absurd rfl hreset
  | start =>
    rcases heffect with ⟨hstopped, -⟩ | ⟨-, rfl⟩
    · exact absurd hstopped (hstart rfl)
    · rfl
  | sample va vb vc vbus =>
    rcases heffect with ⟨-, rfl⟩ | ⟨-, rfl⟩ | ⟨-, rfl⟩
    · exact latched_sampleLocked _
    · exact latched_sampleStarting (s := s.refresh va vb vc) hfault vbus
    · rfl
  | resolveSector => exact heffect ▸ latched_resolveSector s
  | commutate time => exact heffect ▸ latched_commutate s time

/-- Settles O43: the command is no reset and finds the motor driven, and SAMPLE is neither reset nor START. -/
theorem directionAndDutyAreLatchedWhileDriving : Obligations.DirectionAndDutyAreLatchedWhileDriving := by
  intro s t h hdriving hrst
  have hstate : s.regs.state ≠ .stopped := by rcases hdriving with e | e <;> simp [e]
  have hlatched : latched t = latched s := by
    rcases step_eq_next h with ⟨hr, -⟩ | ⟨-, -, rfl⟩ | ⟨-, -, u, hu, ht⟩
    · simp [hrst] at hr
    · rfl
    have hcommand : latched u = latched s := by
      rcases runCommand_eq_next hu with ⟨-, he⟩ | ⟨-, rfl⟩
      · exact latched_exec (s := s.beginStep) (decode_ne_reset _) (fun _ => hstate) he
      · rfl
    rcases runSample_eq_next ht with ⟨-, -, he⟩ | ⟨-, rfl⟩
    · exact (latched_exec (by simp [sampleInstr]) (by simp [sampleInstr]) he).trans hcommand
    · exact hcommand
  simpa [latched] using hlatched

/-! ## The registers nothing reads -/

/-- The state with other values in the two registers no rule reads (R19, R27). -/
def withUnread (s : State) (d : Duty) (time : Millis) : State :=
  { s with regs := { s.regs with cmdDuty := d, startTime := time } }

theorem sampleStarting_of_illegal_sector {s : State} (hsector : 5 < s.regs.sector.toNat) (vbus : Volt) :
    s.sampleStarting vbus = s.raiseFault faultSectorRange := by
  simp [State.sampleStarting, hsector]

theorem sampleStarting_of_illegal_selector {s : State} (hsector : s.regs.sector.toNat ≤ 5)
    (hdsel : phaseOfCode s.regs.dsel = none) (vbus : Volt) :
    s.sampleStarting vbus = s.raiseFault faultDselInvalid := by
  simp [State.sampleStarting, Nat.not_lt.mpr hsector, hdsel]

section
variable (s : State) (d : Duty) (time : Millis)

theorem resolveSector_withUnread : (withUnread s d time).resolveSector = withUnread s.resolveSector d time := by
  rw [resolveSector_eq, resolveSector_eq s]
  rfl

theorem initWith_withUnread (table : HallEntries) :
    (withUnread s d time).initWith table = withUnread (s.initWith table) d time := by
  rw [initWith_eq, initWith_eq s]
  rfl

theorem commutate_withUnread (now : Millis) : (withUnread s d time).commutate now = withUnread (s.commutate now) d time := by
  rcases commutate_cases s now with ⟨hsector, e⟩ | ⟨hsector, e⟩ <;> rw [e]
  · exact commutate_of_illegal (s := withUnread s d time) hsector now
  · exact commutate_of_legal (s := withUnread s d time) hsector now

theorem sampleLocked_withUnread : (withUnread s d time).sampleLocked = withUnread s.sampleLocked d time := by
  rw [sampleLocked_eq, sampleLocked_eq s]
  rfl

variable {s} in
/-- Only a designed PROMOTE could read the two registers. -/
theorem promoteCheck_withUnread (hpromote : s.params.promote ≠ .designed) :
    (withUnread s d time).promoteCheck = withUnread s.promoteCheck d time := by
  have hholds : (withUnread s d time).promoteHolds = s.promoteHolds := by
    cases hp : s.params.promote with
    | never => rw [promoteHolds_never hp, promoteHolds_never (s := withUnread s d time) hp]
    | always => rw [promoteHolds_always hp, promoteHolds_always (s := withUnread s d time) hp]
    | designed => exact absurd hp hpromote
  rw [promoteCheck_eq, promoteCheck_eq s, hholds]
  rfl

variable {s} in
theorem sampleStarting_withUnread (hpromote : s.params.promote ≠ .designed) (hfault : s.regs.fault = 0) (vbus : Volt) :
    (withUnread s d time).sampleStarting vbus = withUnread (s.sampleStarting vbus) d time := by
  rcases Nat.lt_or_ge 5 s.regs.sector.toNat with hsector | hsector
  · rw [sampleStarting_of_illegal_sector hsector]
    exact sampleStarting_of_illegal_sector (s := withUnread s d time) hsector vbus
  cases hdsel : phaseOfCode s.regs.dsel with
  | none =>
    rw [sampleStarting_of_illegal_selector hsector hdsel]
    exact sampleStarting_of_illegal_selector (s := withUnread s d time) hsector hdsel vbus
  | some p =>
    rw [sampleStarting_of_legal hsector hdsel hfault,
      sampleStarting_of_legal (s := withUnread s d time) hsector hdsel hfault]
    have hcommutes : (withUnread s d time).commutesOn p vbus = s.commutesOn p vbus := rfl
    rw [hcommutes]
    split
    · exact promoteCheck_withUnread (s := s.commutateTo _ _) d time hpromote
    · exact promoteCheck_withUnread d time hpromote

end

/-- Operations take states that differ in the unread registers to states that differ there at most. -/
theorem effect_withUnread {i : Instr} {s t : State} (hpromote : s.params.promote ≠ .designed)
    (hfault : s.regs.fault = 0 ∨ i = .reset) (h : Effect i s t) (d : Duty) (time : Millis) :
    ∃ d' time', Effect i (withUnread s d time) (withUnread t d' time') := by
  cases i with
  | nop | stop | setDir | getState | lock =>
    cases h
    exact ⟨d, time, rfl⟩
  | setDuty duty =>
    cases h
    exact ⟨duty, time, rfl⟩
  | reserved op arg =>
    obtain ⟨hpolicy, rfl⟩ := h
    exact ⟨d, time, hpolicy, rfl⟩
  | init =>
    obtain ⟨table, htable, rfl⟩ := h
    exact ⟨d, time, table, htable, (initWith_withUnread s d time table).symm⟩
  | reset =>
    obtain ⟨table, htable, rfl⟩ := h
    exact ⟨0, 0, table, htable, (initWith_withUnread s.resetRegisters 0 0 table).symm⟩
  | start =>
    rcases h with ⟨hstate, rfl⟩ | ⟨hstate, rfl⟩
    · refine ⟨d, s.ports.nowMs, .inl ⟨hstate, ?_⟩⟩
      rw [← commutate_withUnread, ← resolveSector_withUnread]
      rfl
    · exact ⟨d, time, .inr ⟨hstate, rfl⟩⟩
  | sample va vb vc vbus =>
    have hfault : s.regs.fault = 0 := hfault.resolve_right (by simp)
    refine ⟨d, time, ?_⟩
    rcases h with ⟨hstate, rfl⟩ | ⟨hstate, rfl⟩ | ⟨hstate, rfl⟩
    · exact .inl ⟨hstate, (sampleLocked_withUnread _ d time).symm⟩
    · exact .inr (.inl ⟨hstate, (sampleStarting_withUnread (s := s.refresh va vb vc) d time hpromote hfault vbus).symm⟩)
    · exact .inr (.inr ⟨hstate, rfl⟩)
  | resolveSector =>
    cases h
    exact ⟨d, time, (resolveSector_withUnread s d time).symm⟩
  | commutate now =>
    cases h
    exact ⟨d, time, (commutate_withUnread s d time now).symm⟩

/-- Settles O46: the operation's effect carries over to the state with the other values. -/
theorem cmdDutyAndStartTimeAreNeverRead : Obligations.CmdDutyAndStartTimeAreNeverRead := by
  intro i s t d time hpromote h
  rcases exec_eq_next h with ⟨hfault, hreset, rfl⟩ | ⟨hfault, heffect⟩
  · exact ⟨_, exec_halted (s := withUnread t d time) hfault hreset, rfl⟩
  · obtain ⟨d', time', heffect'⟩ := effect_withUnread hpromote hfault heffect d time
    exact ⟨withUnread t d' time', exec_of_effect (s := withUnread s d time) hfault heffect', rfl⟩

end Sys2Proof.Proofs
end

section
/-! The family 20_memory.md: the Hall tables and their selection (R36 to R38), the phase tables that are admitted (R34,
R35), the configurations built from them, and the two refusals of a step (R38, R102). -/

namespace Sys2Proof.Proofs

open Machine Laws

/-! ## The Hall tables -/

/-- The table of a selection 1 to 11 is the parameter's. -/
theorem hallTables_of_parameter (p : Params) {sel : BitVec 4} {n : Fin 11} (h : sel.toNat = n.val + 1) :
    hallTables p sel = some (hallEntriesOf p.hallTables[n]) := by
  have hsel : sel ≠ 0 := by
    rintro rfl
    simp at h
  rw [hallTables, if_neg hsel]
  simp [h]

/-- At the codes 1 to 6 a table has its parameter's entries. -/
theorem hallEntry_hallEntriesOf (t : HallTable) (c : Fin 6) :
    hallEntry (hallEntriesOf t) (BitVec.ofNat 3 (c.val + 1)) = BitVec.ofNat 3 (t.codes[c]).val := by
  fin_cases c <;> rfl

/-- A selection has a table, or it is 12 to 15. -/
theorem hallTables_some_or (p : Params) (sel : BitVec 4) : (∃ t, hallTables p sel = some t) ∨ 12 ≤ sel.toNat := by
  rw [← hallTables_eq_none_iff p sel]
  cases hallTables p sel <;> simp

/-- Every selectable table has the sentinel at the codes 0 and 7. -/
theorem hallTables_sentinel {p : Params} {sel : BitVec 4} {t : HallEntries} (h : hallTables p sel = some t) :
    hallEntry t 0 = 6 ∧ hallEntry t 7 = 6 := by
  unfold hallTables at h
  split at h
  · cases h
    decide
  · obtain ⟨a, -, rfl⟩ := Option.map_eq_some_iff.mp h
    exact ⟨rfl, rfl⟩

/-- Settles O24: the selections 0, 1 to 11 and 12 to 15 in turn, then what their tables share. -/
theorem hallTablesHoldTheSentinel : Obligations.HallTablesHoldTheSentinel := by
  intro p sel
  refine ⟨fun h => ?_, fun n h => ?_, (hallTables_eq_none_iff p sel).symm, fun t h => ?_⟩
  · obtain rfl : sel = 0 := BitVec.eq_of_toNat_eq h
    rfl
  · exact ⟨_, hallTables_of_parameter p h, hallEntry_hallEntriesOf _⟩
  · have le_six : ∀ x : BitVec 3, x ≠ 7 → x.toNat ≤ 6 := by decide
    obtain ⟨hzero, hseven⟩ := hallTables_sentinel h
    exact ⟨hzero, hseven, fun c => le_six _ (hallTables_ne_seven h c)⟩

/-! ## The refusals of a step -/

/-- The INIT effect refuses a selection without a table. -/
theorem initFromStraps_refused {s : State} (h : 12 ≤ s.ports.cfgHallSel.toNat) :
    s.initFromStraps = .refused (.hallSelect s.ports.cfgHallSel) := by
  rcases initFromStraps_cases s with ⟨t, ht, -⟩ | ⟨-, e⟩
  · simp [(hallTables_eq_none_iff s.params _).mpr h] at ht
  · exact e

/-- Settles O25: INIT and the second stage of RESET are the INIT effect on the same straps. -/
theorem badSelectionIsRefused : Obligations.BadSelectionIsRefused :=
  fun s h => ⟨initFromStraps_refused (s := s.resetRegisters) h,
    fun hfault => (unlessHalted_live hfault _).trans (initFromStraps_refused h)⟩

/-- The refusals of an operation: RESET and INIT refuse a selection 12 to 15, and policy refuses a reserved opcode. -/
def Refuses (i : Instr) (s : State) : Refusal → Prop
  | .hallSelect sel => sel = s.ports.cfgHallSel ∧ 12 ≤ sel.toNat ∧ (i = .reset ∨ i = .init)
  | .reservedOpcode op => s.params.reservedOp = .refuse ∧ ∃ arg, i = .reserved op arg
  | .notModelled _ | .phaseTable | .hallTable _ => False

/-- Every operation goes on but for its named refusals. -/
theorem exec_next_or_refused (i : Instr) (s : State) :
    (∃ t, exec i s = .next t) ∨ ∃ r, exec i s = .refused r ∧ Refuses i s r := by
  by_cases hi : i = .reset
  · subst hi
    rcases hallTables_some_or s.params s.ports.cfgHallSel with ⟨t, ht⟩ | h
    · exact .inl ⟨_, exec_of_effect (.inr rfl) ⟨t, ht, rfl⟩⟩
    · exact .inr ⟨_, (badSelectionIsRefused s h).1, rfl, h, .inl rfl⟩
  by_cases hfault : s.regs.fault = 0
  swap
  · exact .inl ⟨s, exec_halted hfault hi⟩
  cases i with
  | reset => exact absurd rfl hi
  | init =>
    rcases hallTables_some_or s.params s.ports.cfgHallSel with ⟨t, ht⟩ | h
    · exact .inl ⟨_, exec_of_effect (.inl hfault) ⟨t, ht, rfl⟩⟩
    · exact .inr ⟨_, (badSelectionIsRefused s h).2 hfault, rfl, h, .inr rfl⟩
  | reserved op arg =>
    cases hpolicy : s.params.reservedOp with
    | nop => exact .inl ⟨s, exec_of_effect (.inl hfault) ⟨hpolicy, rfl⟩⟩
    | refuse =>
      refine .inr ⟨.reservedOpcode op, ?_, hpolicy, arg, rfl⟩
      simp only [exec, execReserved, unlessHalted_live hfault, hpolicy]
  | start =>
    by_cases hstate : s.regs.state = .stopped
    · exact .inl ⟨_, exec_of_effect (.inl hfault) (.inl ⟨hstate, rfl⟩)⟩
    · exact .inl ⟨_, exec_of_effect (.inl hfault) (.inr ⟨hstate, rfl⟩)⟩
  | sample va vb vc vbus => exact .inl ⟨_, execSample_live hfault va vb vc vbus⟩
  | nop | stop | setDir | setDuty | getState | lock | resolveSector | commutate =>
    exact .inl ⟨_, exec_of_effect (.inl hfault) rfl⟩

theorem decode_eq_init {w : CmdWord} (h : decode w = .init) : (opField w).toNat = 1 := by
  unfold decode at h
  split at h <;> cases h
  simp [*]

theorem decode_eq_reserved {w : CmdWord} {op : Opcode} {arg : Arg} (h : decode w = .reserved op arg) :
    op = opField w ∧ 8 ≤ (opField w).toNat := by
  unfold decode at h
  split at h <;> cases h
  refine ⟨rfl, ?_⟩
  simp only [imp_false] at *
  bv_omega

/-- The command phase goes on, or the word decodes to an operation that refuses. -/
theorem runCommand_next_or_refused (s : State) :
    (∃ t, s.runCommand = .next t) ∨
      ∃ r, s.runCommand = .refused r ∧ s.ports.cmdValid = true ∧ Refuses (decode s.ports.cmdWord) s r := by
  by_cases hcmd : s.ports.cmdValid = true
  · rw [State.runCommand, if_pos hcmd]
    simpa [hcmd] using exec_next_or_refused (decode s.ports.cmdWord) s
  · exact .inl ⟨s, if_neg hcmd⟩

/-- The sample phase always goes on: SAMPLE refuses nothing. -/
theorem runSample_next (s : State) : ∃ t, s.runSample = .next t := by
  unfold State.runSample
  split
  · split
    · obtain h | ⟨r, -, hr⟩ := exec_next_or_refused (sampleInstr s.ports) s
      · exact h
      · cases r <;> simp [Refuses, sampleInstr] at hr
    · exact ⟨s, rfl⟩
  · exact ⟨s, rfl⟩

/-- A step goes on, or the reset or the command it runs refuses. -/
theorem step_next_or_refused (s : State) :
    (∃ t, step s = .next t) ∨
      ∃ i r, step s = .refused r ∧ Refuses i s.beginStep r ∧
        ((s.nextPorts.rst = true ∧ i = .reset) ∨ (s.nextPorts.cmdValid = true ∧ i = decode s.nextPorts.cmdWord)) := by
  rw [step, State.arbitrate, beginStep_ports, beginStep_regs]
  by_cases hrst : s.nextPorts.rst = true
  · rw [if_pos hrst]
    obtain h | ⟨r, h, hr⟩ := exec_next_or_refused .reset s.beginStep
    · exact .inl h
    · exact .inr ⟨.reset, r, h, hr, .inl ⟨hrst, rfl⟩⟩
  rw [if_neg hrst]
  by_cases hfault : s.regs.fault = 0
  · rw [if_pos hfault]
    obtain ⟨u, hu⟩ | ⟨r, h, hcmd, hr⟩ := runCommand_next_or_refused s.beginStep
    · rw [hu]
      exact .inl (runSample_next u)
    · rw [h]
      exact .inr ⟨_, r, rfl, hr, .inr ⟨hcmd, rfl⟩⟩
  · rw [if_neg hfault]
    exact .inl ⟨_, rfl⟩

/-- Settles O10: the operation that refuses is the reset or the decoded command, so the word's opcode says which. -/
theorem stepsGoOnButForNamedRefusals : Obligations.StepsGoOnButForNamedRefusals := by
  intro s
  obtain h | ⟨i, r, h, hr, hi⟩ := step_next_or_refused s
  · exact .inl h
  cases r with
  | hallSelect sel =>
    obtain ⟨rfl, hsel, hop⟩ := hr
    refine .inr (.inl ⟨h, hsel, ?_⟩)
    rcases hi with ⟨hrst, -⟩ | ⟨hcmd, rfl⟩
    · exact .inl hrst
    · exact .inr ⟨hcmd, decode_eq_init (hop.resolve_left (decode_ne_reset _))⟩
  | reservedOpcode op =>
    obtain ⟨hpolicy, arg, rfl⟩ := hr
    rcases hi with ⟨-, hop⟩ | ⟨hcmd, hop⟩
    · cases hop
    · obtain ⟨rfl, hle⟩ := decode_eq_reserved hop.symm
      exact .inr (.inr ⟨h, hpolicy, hcmd, hle⟩)
  | notModelled | phaseTable | hallTable => exact hr.elim

/-! ## The admitted phase tables -/

/-- The row in which the phase driven high keeps its role and the other two swap theirs. -/
def keepHi (r : RawRow) : RawRow := ⟨r.hi, r.dorm, r.lo⟩

/-- The row in which the phase driven low keeps its role and the other two swap theirs. -/
def keepLo (r : RawRow) : RawRow := ⟨r.dorm, r.lo, r.hi⟩

/-- The third constraint of R35 leaves two next rows. -/
theorem stepsTo_keeps {r n : RawRow} (h : RawRow.StepsTo r n) : n = keepHi r ∨ n = keepLo r := by
  obtain ⟨-, ⟨hhi, -, hlo, hdorm⟩ | ⟨hlo, -, hhi, hdorm⟩⟩ := h
  · exact .inl (by cases n; simp_all [keepHi])
  · exact .inr (by cases n; simp_all [keepLo])

/-- In an admitted table the kept role alternates: keeping the same one twice would repeat a row. -/
theorem kept_role_alternates {t : RawPhaseTable} (h : RawPhaseTable.Admitted t) (k : Fin 6) :
    (t[k + 1] = keepHi t[k] → t[k + 1 + 1] = keepLo t[k + 1]) ∧
      (t[k + 1] = keepLo t[k] → t[k + 1 + 1] = keepHi t[k + 1]) := by
  obtain ⟨-, -, hstep, hinj⟩ := h
  have hindex : ∀ k : Fin 6, k + 1 + 1 ≠ k := by decide
  have hne : t[k + 1 + 1] ≠ t[k] := mt (hinj _ _) (hindex k)
  constructor <;> intro hk <;> have hkept := stepsTo_keeps (hstep (k + 1))
  · exact hkept.resolve_left fun e => hne (by rw [e, hk]; rfl)
  · exact hkept.resolve_right fun e => hne (by rw [e, hk]; rfl)

theorem admitted_rawPhaseTable (p : PhaseTable) : RawPhaseTable.Admitted (rawPhaseTable p) := by cases p <;> decide

section
variable {t u : RawPhaseTable} (ht : RawPhaseTable.Admitted t) (hu : RawPhaseTable.Admitted u)
include ht hu

/-- Two consecutive rows of an admitted table determine the next. -/
theorem next_row_eq (k : Fin 6) (hrow : t[k] = u[k]) (hnext : t[k + 1] = u[k + 1]) : t[k + 1 + 1] = u[k + 1 + 1] := by
  have ⟨_, _, hstep, _⟩ := ht
  rcases stepsTo_keeps (hstep k) with h | h
  · rw [(kept_role_alternates ht k).1 h, (kept_role_alternates hu k).1 (by rw [← hnext, h, hrow]), hnext]
  · rw [(kept_role_alternates ht k).2 h, (kept_role_alternates hu k).2 (by rw [← hnext, h, hrow]), hnext]

/-- Row 3 is fixed, so row 4 determines an admitted table. -/
theorem admitted_eq_of_row_four (h4 : t[4] = u[4]) : t = u := by
  have h3 : t[3] = u[3] := ht.2.1.trans hu.2.1.symm
  have h5 : t[5] = u[5] := next_row_eq ht hu 3 h3 h4
  have h0 : t[0] = u[0] := next_row_eq ht hu 4 h4 h5
  have h1 : t[1] = u[1] := next_row_eq ht hu 5 h5 h0
  have h2 : t[2] = u[2] := next_row_eq ht hu 0 h0 h1
  ext i hi
  interval_cases i <;> assumption

end

/-- The role kept from row 3 to row 4 tells the two admitted tables apart. -/
theorem admitted_iff (t : RawPhaseTable) :
    RawPhaseTable.Admitted t ↔ t = rawPhaseTable .canonical ∨ t = rawPhaseTable .parityMatched := by
  constructor
  · intro h
    have ⟨_, h3, hstep, _⟩ := h
    rcases stepsTo_keeps (hstep 3) with h4 | h4 <;> replace h4 := h4.trans (congrArg _ h3)
    · exact .inr (admitted_eq_of_row_four h (admitted_rawPhaseTable _) h4)
    · exact .inl (admitted_eq_of_row_four h (admitted_rawPhaseTable _) h4)
  · rintro (rfl | rfl) <;> exact admitted_rawPhaseTable _

/-- Settles O31: the rows are read off, and the constraints leave one choice, the role kept from row 3 to row 4. -/
theorem exactlyTwoPhaseTablesAreAdmitted : Obligations.ExactlyTwoPhaseTablesAreAdmitted :=
  ⟨by decide, by decide, by decide, by decide, admitted_iff⟩

/-! ## Configurations -/

/-- A table that breaks R35 is not loaded. -/
theorem loadPhaseTable_of_not_admitted {t : RawPhaseTable} (h : ¬ RawPhaseTable.Admitted t) : loadPhaseTable t = none :=
  if_neg h

/-- An admitted table is loaded as the parameter whose rows it has. -/
theorem loadPhaseTable_of_admitted {t : RawPhaseTable} (h : RawPhaseTable.Admitted t) :
    ∃ p, loadPhaseTable t = some p ∧ rawPhaseTable p = t := by
  rcases (admitted_iff t).mp h with rfl | rfl
  · exact ⟨.canonical, by decide, rfl⟩
  · exact ⟨.parityMatched, by decide, rfl⟩

/-- Loading an admitted Hall table keeps its entries: none of them is 7, so no entry wraps. -/
theorem hallEntriesOf_loadHallTable {t : HallEntries} (h : HallAdmitted t) : hallEntriesOf (loadHallTable t) = t := by
  obtain ⟨hzero, hseven, hentry⟩ := h
  have hkept : ∀ x : BitVec 3, x ≠ 7 → BitVec.ofNat 3 (Fin.ofNat 7 x.toNat).val = x := by decide
  ext i hi : 1
  interval_cases i
  · exact hzero.symm
  · exact hkept _ (hentry 1)
  · exact hkept _ (hentry 2)
  · exact hkept _ (hentry 3)
  · exact hkept _ (hentry 4)
  · exact hkept _ (hentry 5)
  · exact hkept _ (hentry 6)
  · exact hseven.symm

section
variable {c : RawConfig}

theorem configure_refuses_phaseTable (h : ¬ RawPhaseTable.Admitted c.phaseTable) :
    State.configure c = .refused .phaseTable := by
  simp only [State.configure, loadPhaseTable_of_not_admitted h]

theorem configure_refuses_hallTable (h : RawPhaseTable.Admitted c.phaseTable) {k : Fin 11}
    (hk : ¬ HallAdmitted c.hallTables[k]) : ∃ n, State.configure c = .refused (.hallTable n) := by
  obtain ⟨p, hload, -⟩ := loadPhaseTable_of_admitted h
  have hfound : (c.hallTables.toList.findIdx? fun t => ¬ HallAdmitted t).isSome := by
    rw [List.findIdx?_isSome, List.any_eq_true]
    exact ⟨c.hallTables[k], by simp, decide_eq_true hk⟩
  obtain ⟨n, hn⟩ := Option.isSome_iff_exists.mp hfound
  exact ⟨n + 1, by simp only [State.configure, hload, hn]⟩

theorem configure_next (h : RawPhaseTable.Admitted c.phaseTable) (hhall : ∀ k : Fin 11, HallAdmitted c.hallTables[k]) :
    ∃ p, rawPhaseTable p = c.phaseTable ∧
      State.configure c = .next (State.resetWith ⟨p, c.hallTables.map loadHallTable, c.startDuty, c.promote, c.timeCmp,
        c.reservedOp⟩) := by
  obtain ⟨p, hload, hrows⟩ := loadPhaseTable_of_admitted h
  have hnone : (c.hallTables.toList.findIdx? fun t => ¬ HallAdmitted t) = none := by
    rw [List.findIdx?_eq_none_iff]
    intro t ht
    obtain ⟨i, hi, rfl⟩ := Vector.mem_iff_getElem.mp (Vector.mem_toList_iff.mp ht)
    exact decide_eq_false (not_not.mpr (hhall ⟨i, hi⟩))
  exact ⟨p, hrows, by simp only [State.configure, hload, hnone]⟩

end

/-- Settles O32: the three answers of a configuration exclude one another, and so do their conditions. -/
theorem configurationsAreRefusedByTheirTables : Obligations.ConfigurationsAreRefusedByTheirTables := by
  intro c
  refine ⟨⟨fun e h => ?_, configure_refuses_phaseTable⟩, fun h => ⟨fun ⟨n, e⟩ => ?_, fun ⟨_, hk⟩ => ?_⟩, fun h hhall => ?_⟩
  · by_cases hhall : ∀ k : Fin 11, HallAdmitted c.hallTables[k]
    · obtain ⟨p, -, e'⟩ := configure_next h hhall
      cases e.symm.trans e'
    · obtain ⟨k, hk⟩ := not_forall.mp hhall
      obtain ⟨n, e'⟩ := configure_refuses_hallTable h hk
      cases e.symm.trans e'
  · by_contra hall
    obtain ⟨p, -, e'⟩ := configure_next h fun k => by_contra fun hk => hall ⟨k, hk⟩
    cases e.symm.trans e'
  · exact configure_refuses_hallTable h hk
  · obtain ⟨p, hrows, e⟩ := configure_next h hhall
    refine ⟨_, e, hrows, fun k => ?_, rfl, rfl, rfl, rfl⟩
    simpa using hallEntriesOf_loadHallTable (hhall k)

end Sys2Proof.Proofs
end

section
/-! The family 30_encoding.md: the command word (R52 to R55), the codes and the output ports (R50, R59), steps that run
one command or none (R48, R62, R63), the PWM events of a step (R60), and which inputs an operation reads (R49, R51). -/

namespace Sys2Proof.Proofs

open Machine Laws

/-! ## The command word -/

theorem exists_cmdWordOf (w : CmdWord) : ∃ op a, w = cmdWordOf op a := ⟨_, _, (cmdWordOf_fields w).symm⟩

theorem cmdWordOf_toNat (op : Opcode) (a : Arg) : (cmdWordOf op a).toNat = a.toNat * 16 + op.toNat := by
  rw [cmdWordOf, BitVec.toNat_append, Nat.shiftLeft_eq, Nat.mul_comm, ← Nat.two_pow_add_eq_or_of_lt op.isLt, Nat.mul_comm]

@[simp] theorem cmdWordOf_toNat_mod (op : Opcode) (a : Arg) : (cmdWordOf op a).toNat % 16 = op.toNat := by
  have := op.isLt
  rw [cmdWordOf_toNat]
  omega

@[simp] theorem cmdWordOf_toNat_div (op : Opcode) (a : Arg) : (cmdWordOf op a).toNat / 16 = a.toNat := by
  have := op.isLt
  rw [cmdWordOf_toNat]
  omega

/-- Bit `k` of the argument is bit `k + 4` of the word (R52). -/
theorem getLsbD_cmdWordOf (op : Opcode) (a : Arg) (k : Nat) : (cmdWordOf op a).getLsbD (k + 4) = a.getLsbD k := by
  simp only [cmdWordOf, BitVec.getLsbD_append]
  simp

/-! The rows of the opcode map (R53). -/

@[simp] theorem decode_nop_word (a : Arg) : decode (cmdWordOf 0x0#4 a) = .nop := by simp [decode]
@[simp] theorem decode_init_word (a : Arg) : decode (cmdWordOf 0x1#4 a) = .init := by simp [decode]
@[simp] theorem decode_start_word (a : Arg) : decode (cmdWordOf 0x2#4 a) = .start := by simp [decode]
@[simp] theorem decode_stop_word (a : Arg) : decode (cmdWordOf 0x3#4 a) = .stop := by simp [decode]
@[simp] theorem decode_setDir_word (a : Arg) : decode (cmdWordOf 0x4#4 a) = .setDir (dirOperand a) := by simp [decode]
@[simp] theorem decode_setDuty_word (a : Arg) : decode (cmdWordOf 0x5#4 a) = .setDuty (dutyOperand a) := by simp [decode]
@[simp] theorem decode_getState_word (a : Arg) : decode (cmdWordOf 0x6#4 a) = .getState := by simp [decode]
@[simp] theorem decode_lock_word (a : Arg) : decode (cmdWordOf 0x7#4 a) = .lock a := by simp [decode]

theorem decode_reserved_word {op : Opcode} (h : op.getLsbD 3 = true) (a : Arg) :
    decode (cmdWordOf op a) = .reserved op a := by
  simp only [decode, opField_cmdWordOf, argField_cmdWordOf]
  split
  case h_9 => rfl
  all_goals simp at h

/-- The opcodes with bit 3 clear are those of the eight named rows. -/
theorem opcode_named : ∀ op : Opcode, ¬ op.getLsbD 3 = true →
    op = 0x0 ∨ op = 0x1 ∨ op = 0x2 ∨ op = 0x3 ∨ op = 0x4 ∨ op = 0x5 ∨ op = 0x6 ∨ op = 0x7 := by decide

theorem opcode_reserved_of_le : ∀ op : Opcode, 8 ≤ op.toNat → op.getLsbD 3 = true := by decide

/-- A well-formed operation is the decoding of its command word. -/
theorem decode_encode {i : Instr} {w : CmdWord} (hi : i.wellFormed = true) (h : encode i = some w) : decode w = i := by
  cases i with
  | nop | init | start | stop | getState | lock | setDir | setDuty =>
    cases h
    simp
  | reserved op a =>
    cases h
    exact decode_reserved_word hi a
  | sample | reset | resolveSector | commutate => cases h

/-- Settles O1: the encoder puts each operand where the row's decoder reads it, and a reserved opcode has bit 3 set. -/
theorem decodeOfEncodeIsTheInstruction : Obligations.DecodeOfEncodeIsTheInstruction :=
  ⟨fun _ _ => decode_encode, fun i => by cases i <;> simp [encode]⟩

/-- The direction is the argument's lowest bit, as a number (R54). -/
theorem dirOperand_eq (a : Arg) : dirOperand a = if a.toNat % 2 = 1 then .reverse else .forward := by
  simp [dirOperand, BitVec.getLsbD, Nat.testBit_zero]

/-- The duty is the argument's low 16 bits, as a number (R54). -/
theorem dutyOperand_eq (a : Arg) : dutyOperand a = BitVec.ofNat 16 (a.toNat % 2 ^ 16) := by
  apply BitVec.eq_of_toNat_eq
  simp [dutyOperand]

/-- Settles O2: a word is its opcode and its argument, which are the remainder and the quotient by 16 of its number. -/
theorem everyWordSelectsItsOpcodeRow : Obligations.EveryWordSelectsItsOpcodeRow := by
  intro w
  obtain ⟨op, a, rfl⟩ := exists_cmdWordOf w
  have opcode_eq {n : Nat} (h : op.toNat = n) : op = BitVec.ofNat 4 n := by simp [← h]
  simp only [cmdWordOf_toNat_mod, cmdWordOf_toNat_div, ← dirOperand_eq, ← dutyOperand_eq, BitVec.ofNat_toNat,
    BitVec.setWidth_eq]
  refine ⟨?_, ?_, ?_, ?_, ?_, ?_, ?_, ?_, fun h => decode_reserved_word (opcode_reserved_of_le op h) a⟩
  all_goals
    intro h
    cases opcode_eq h
    simp

/-- The duty operand reads the argument's bits 0 to 15 only. -/
theorem dutyOperand_congr {a b : Arg} (h : ∀ k < 16, a.getLsbD k = b.getLsbD k) : dutyOperand a = dutyOperand b := by
  apply BitVec.eq_of_getLsbD_eq
  intro k hk
  simp [dutyOperand, hk, h k hk]

/-- Settles O3: of the rows named, only SET_DIR and SET_DUTY read their argument, each in the bits assumed to agree. -/
theorem unusedArgumentBitsAreIgnored : Obligations.UnusedArgumentBitsAreIgnored := by
  intro w x hop
  obtain ⟨op, a, rfl⟩ := exists_cmdWordOf w
  obtain ⟨op', b, rfl⟩ := exists_cmdWordOf x
  simp only [opField_cmdWordOf] at hop ⊢
  subst hop
  refine ⟨fun h hbit => ?_, fun h hbits => ?_, fun h => ?_⟩
  · obtain rfl : op = 0x4 := BitVec.eq_of_toNat_eq h
    have hdir : dirOperand a = dirOperand b := by
      rw [dirOperand, ← getLsbD_cmdWordOf 0x4 a 0, hbit, getLsbD_cmdWordOf, dirOperand]
    simp [hdir]
  · obtain rfl : op = 0x5 := BitVec.eq_of_toNat_eq h
    have hduty : dutyOperand a = dutyOperand b := dutyOperand_congr fun k hk => by
      simpa only [getLsbD_cmdWordOf] using hbits (k + 4) (by omega) (by omega)
    simp [hduty]
  · have hrows : ∀ op : Opcode, op.toNat ≤ 3 ∨ op.toNat = 6 →
        op = 0x0 ∨ op = 0x1 ∨ op = 0x2 ∨ op = 0x3 ∨ op = 0x6 := by decide
    rcases hrows op h with rfl | rfl | rfl | rfl | rfl <;> simp

/-- What a word decodes to is well-formed, and encodes to a word of the same opcode. -/
theorem encode_decode (op : Opcode) (a : Arg) :
    (decode (cmdWordOf op a)).wellFormed = true ∧ ∃ b, encode (decode (cmdWordOf op a)) = some (cmdWordOf op b) := by
  by_cases h : op.getLsbD 3 = true
  · rw [decode_reserved_word h]
    exact ⟨h, a, rfl⟩
  · rcases opcode_named op h with rfl | rfl | rfl | rfl | rfl | rfl | rfl | rfl <;>
      exact ⟨by simp [Instr.wellFormed], by simp [encode]⟩

/-- Settles O4: the decoded operation's own word decodes to it by the round trip. -/
theorem everyDecodedWordIsWellFormed : Obligations.EveryDecodedWordIsWellFormed := by
  intro w
  obtain ⟨op, a, rfl⟩ := exists_cmdWordOf w
  obtain ⟨hwellFormed, b, hb⟩ := encode_decode op a
  exact ⟨hwellFormed, cmdWordOf op b, hb, by simp, decode_encode hwellFormed hb⟩

/-- Settles O5: each word is a literal. -/
theorem spelledWordsDecode : Obligations.SpelledWordsDecode := by
  unfold Obligations.SpelledWordsDecode
  decide

/-! ## The output ports and the field encodings -/

/-- Settles O51: the ports show the registers, and the listed codes are the model's. -/
theorem outputPortsShowTheirRegisters : Obligations.OutputPortsShowTheirRegisters := by
  intro s code bit
  have hcode : ∀ x, stateCode x = code x := by rintro (_ | _ | _ | _) <;> rfl
  have hbit : ∀ x, modeCode x = bit x := by rintro (_ | _) <;> rfl
  exact ⟨hcode _, hcode _, hbit _, rfl, hbit _, rfl, hbit _, rfl, rfl, rfl⟩

/-- Settles O52: the enumerated codes are finite checks; the entries of a Hall table are below 7, so 3 bits hold them. -/
theorem fieldEncodingsAreThoseListed : Obligations.FieldEncodingsAreThoseListed := by
  refine ⟨by decide, by decide, by decide, by decide, by decide, by decide, by decide, by decide, by decide, by decide,
    by decide, by decide, by decide, rfl, rfl, rfl, sectorBits_legal, fun t c => ?_, fun _ => ⟨rfl, rfl⟩⟩
  have hentry : ∀ x : Fin 7, (BitVec.ofNat 3 x.val).toNat = x.val := by decide
  rw [hallEntry_hallEntriesOf, hentry]

/-! ## What an operation writes -/

/-- From `s` to `t` only registers and PWM outputs are written, and the at most `n` PWM writes are logged (R60). -/
def Logs (n : Nat) (s t : State) : Prop :=
  ∃ es : List PwmEvent, es.length ≤ n ∧
    t = { s with
      regs := { t.regs with pwm := es.foldl PwmEvent.apply s.regs.pwm }
      pwmEvents := s.pwmEvents ++ es }

theorem Logs.refl {n : Nat} (s : State) : Logs n s s := ⟨[], Nat.zero_le n, by simp⟩

theorem Logs.trans {m n : Nat} {s u t : State} (hsu : Logs m s u) (hut : Logs n u t) : Logs (m + n) s t := by
  obtain ⟨es, hes, hu⟩ := hsu
  obtain ⟨fs, hfs, ht⟩ := hut
  refine ⟨es ++ fs, ?_, ?_⟩
  · rw [List.length_append]
    exact Nat.add_le_add hes hfs
  · rw [ht, hu]
    simp

theorem Logs.mono {m n : Nat} {s t : State} (h : Logs m s t) (hmn : m ≤ n) : Logs n s t := by
  obtain ⟨es, hes, ht⟩ := h
  exact ⟨es, hes.trans hmn, ht⟩

theorem Logs.ports {n : Nat} {s t : State} (h : Logs n s t) : t.ports = s.ports := by
  obtain ⟨es, -, e⟩ := h
  rw [e]

theorem Logs.params {n : Nat} {s t : State} (h : Logs n s t) : t.params = s.params := by
  obtain ⟨es, -, e⟩ := h
  rw [e]

/-- Such writes that also spare the registers loaded from the straps, `SK` and `HDT`. -/
structure Spares (n : Nat) (s t : State) : Prop where
  logs : Logs n s t
  sk : t.regs.sk = s.regs.sk
  hdt : t.regs.hdt = s.regs.hdt

theorem Spares.refl {n : Nat} (s : State) : Spares n s s := ⟨Logs.refl s, rfl, rfl⟩

theorem Spares.trans {m n : Nat} {s u t : State} (hsu : Spares m s u) (hut : Spares n u t) : Spares (m + n) s t :=
  ⟨hsu.logs.trans hut.logs, hut.sk.trans hsu.sk, hut.hdt.trans hsu.hdt⟩

theorem Spares.mono {m n : Nat} {s t : State} (h : Spares m s t) (hmn : m ≤ n) : Spares n s t :=
  ⟨h.logs.mono hmn, h.sk, h.hdt⟩

/-- Registers other than the PWM outputs, `SK` and `HDT` may be written unlogged. -/
theorem spares_of_eq {s t : State} (h : t = { s with regs := { t.regs with
    pwm := s.regs.pwm, sk := s.regs.sk, hdt := s.regs.hdt } }) : Spares 0 s t := by
  refine ⟨⟨[], le_rfl, ?_⟩, ?_, ?_⟩ <;> rw [h]
  simp

theorem spares_pwmWrite (s : State) (p : Phase) (mode : PwmMode) (duty : Duty) : Spares 1 s (s.pwmWrite p mode duty) :=
  ⟨⟨[⟨p, mode, duty⟩], le_rfl, rfl⟩, rfl, rfl⟩

theorem spares_allDormant (s : State) : Spares 3 s s.allDormant :=
  ((spares_pwmWrite s _ _ _).trans (spares_pwmWrite _ _ _ _)).trans (spares_pwmWrite _ _ _ _)

theorem spares_raiseFault (s : State) (code : FaultCode) : Spares 3 s (s.raiseFault code) :=
  Spares.trans (m := 0) (spares_of_eq rfl) (spares_allDormant _)

theorem spares_resolveSector (s : State) : Spares 0 s s.resolveSector := spares_of_eq (by rw [resolveSector_eq])

theorem spares_sampleLocked (s : State) : Spares 0 s s.sampleLocked := spares_of_eq (by rw [sampleLocked_eq])

theorem spares_promoteCheck (s : State) : Spares 0 s s.promoteCheck := spares_of_eq (by rw [promoteCheck_eq])

theorem spares_commutateTo (s : State) (k : Fin 6) (time : Millis) : Spares 3 s (s.commutateTo k time) := by
  let row := romPhase s.params.phaseTable k
  let d := s.regs.dutyCycle
  have hsector : Spares 0 s { s with regs := { s.regs with sector := sectorBits k } } := spares_of_eq rfl
  have hdorm := hsector.trans (spares_pwmWrite _ row.dorm .dormant d)
  have hhi := hdorm.trans (spares_pwmWrite _ row.hi .driven (highSideDuty d))
  have hlo := hhi.trans (spares_pwmWrite _ row.lo .driven (lowSideDuty d))
  exact hlo.trans (spares_of_eq rfl)

/-- A commutation makes three PWM writes, and so does the contract violation in its place. -/
theorem spares_commutate (s : State) (time : Millis) : Spares 3 s (s.commutate time) := by
  rcases commutate_cases s time with ⟨-, e⟩ | ⟨-, e⟩ <;> rw [e]
  · exact spares_raiseFault s _
  · exact spares_commutateTo s _ _

theorem spares_sampleStarting {s : State} (hfault : s.regs.fault = 0) (vbus : Volt) :
    Spares 3 s (s.sampleStarting vbus) := by
  rcases sampleStarting_cases hfault vbus with ⟨-, e⟩ | ⟨-, -, e⟩ | ⟨-, p, -, ⟨-, e⟩ | ⟨-, e⟩⟩ <;> rw [e]
  · exact spares_raiseFault s _
  · exact spares_raiseFault s _
  · exact (spares_commutateTo s _ _).trans (spares_promoteCheck _)
  · exact (spares_promoteCheck s).mono (by decide)

/-- Every operation but INIT and RESET spares `SK` and `HDT`, and makes at most three PWM writes. -/
theorem spares_exec {i : Instr} {s t : State} (hinit : i ≠ .init) (hreset : i ≠ .reset) (h : exec i s = .next t) :
    Spares 3 s t := by
  rcases exec_eq_next h with ⟨-, -, rfl⟩ | ⟨hfault, heffect⟩
  · exact Spares.refl t
  replace hfault := hfault.resolve_right hreset
  cases i with
  | init => exact absurd rfl hinit
  | reset => exact absurd rfl hreset
  | nop | setDir | setDuty | getState =>
    cases heffect
    exact (spares_of_eq rfl).mono (by decide)
  | reserved op arg =>
    obtain ⟨-, rfl⟩ := heffect
    exact Spares.refl t
  | stop | lock =>
    cases heffect
    exact (spares_allDormant s).trans (spares_of_eq rfl)
  | start =>
    rcases heffect with ⟨-, rfl⟩ | ⟨-, rfl⟩
    · have hlaunch : Spares 0 s s.launch := spares_of_eq rfl
      exact (hlaunch.trans (spares_resolveSector _)).trans (spares_commutate _ _)
    · exact Spares.refl t
  | sample va vb vc vbus =>
    have hfresh : Spares 0 s (s.refresh va vb vc) := spares_of_eq rfl
    rcases heffect with ⟨-, rfl⟩ | ⟨-, rfl⟩ | ⟨-, rfl⟩
    · exact (hfresh.trans (spares_sampleLocked _)).mono (by decide)
    · exact hfresh.trans (spares_sampleStarting (s := s.refresh va vb vc) hfault vbus)
    · exact hfresh.mono (by decide)
  | resolveSector => exact heffect ▸ (spares_resolveSector s).mono (by decide)
  | commutate time => exact heffect ▸ spares_commutate s time

/-- The INIT effect logs the three dormant writes, which leave no trace of the outputs before them. -/
theorem logs_initWith {s u : State} (hregs : u = { s with regs := u.regs }) (table : HallEntries) :
    Logs 3 s (u.initWith table) :=
  ⟨dormantEvents, le_rfl, by rw [initWith_eq, hregs]; rfl⟩

/-- Every operation logs its PWM writes, at most three. -/
theorem logs_exec {i : Instr} {s t : State} (h : exec i s = .next t) : Logs 3 s t := by
  by_cases hreset : i = .reset
  · subst hreset
    obtain ⟨table, -, rfl⟩ := execReset_eq_next h
    exact logs_initWith rfl table
  by_cases hinit : i = .init
  · subst hinit
    rcases exec_eq_next h with ⟨-, -, rfl⟩ | ⟨-, table, -, rfl⟩
    · exact Logs.refl t
    · exact logs_initWith rfl table
  · exact (spares_exec hinit hreset h).logs

/-- The sample phase runs SAMPLE or nothing. -/
theorem spares_runSample {s t : State} (h : s.runSample = .next t) : Spares 3 s t := by
  rcases runSample_eq_next h with ⟨-, -, he⟩ | ⟨-, rfl⟩
  · exact spares_exec (by simp [sampleInstr]) (by simp [sampleInstr]) he
  · exact Spares.refl _

/-- Settles O47: a step makes its command's three PWM writes and then its SAMPLE's three, from an empty event list. -/
theorem pwmRegistersHoldTheLastWrites : Obligations.PwmRegistersHoldTheLastWrites := by
  intro s t h
  have hlogs : Logs 6 s.beginStep t := by
    rcases step_eq_next h with ⟨-, hr⟩ | ⟨-, -, rfl⟩ | ⟨-, -, u, hu, ht⟩
    · exact (logs_exec hr).mono (by decide)
    · exact Logs.refl _
    have hcommand : Logs 3 s.beginStep u := by
      rcases runCommand_eq_next hu with ⟨-, he⟩ | ⟨-, rfl⟩
      · exact logs_exec he
      · exact Logs.refl _
    exact hcommand.trans (spares_runSample ht).logs
  obtain ⟨es, hlength, e⟩ := hlogs
  have hevents : t.pwmEvents = es := by rw [e]; rfl
  rw [hevents]
  exact ⟨by rw [e]; rfl, hlength⟩

/-! ## Steps that run one command or none -/

/-- A live step without reset is the command phase and then the sample phase. -/
theorem step_of_live {s : State} (hrst : s.nextPorts.rst = false) (hfault : s.regs.fault = 0) :
    step s = andThen s.beginStep.runCommand State.runSample :=
  (if_neg (Bool.eq_false_iff.mp hrst)).trans (if_pos hfault)

/-- A halted step without reset only samples its inputs. -/
theorem step_of_halted {s : State} (hrst : s.nextPorts.rst = false) (hfault : s.regs.fault ≠ 0) :
    step s = .next s.beginStep :=
  (if_neg (Bool.eq_false_iff.mp hrst)).trans (if_neg hfault)

/-- Without a sample event the sample phase leaves the state alone. -/
theorem runSample_of_no_sample {s : State} (hsample : s.ports.sampleValid = false) : s.runSample = .next s := by
  simp [State.runSample, hsample]

/-- A step with a command and no other event is the command's operation, after the inputs have been sampled. -/
theorem step_of_command {s : State} (hfault : s.regs.fault = 0) (hrst : s.nextPorts.rst = false)
    (hcmd : s.nextPorts.cmdValid = true) (hsample : s.nextPorts.sampleValid = false) :
    step s = exec (decode s.nextPorts.cmdWord) s.beginStep := by
  have hcommand : s.beginStep.runCommand = exec (decode s.nextPorts.cmdWord) s.beginStep := if_pos hcmd
  rw [step_of_live hrst hfault, hcommand]
  rcases exec_next_or_refused (decode s.nextPorts.cmdWord) s.beginStep with ⟨u, hu⟩ | ⟨r, hr, -⟩
  · rw [hu, andThen_next, runSample_of_no_sample ((congrArg Ports.sampleValid (logs_exec hu).ports).trans hsample)]
  · rw [hr, andThen_refused]

/-- Settles O6: the placed frame presents the word and no other event. -/
theorem stepRunsTheFetchedCommand : Obligations.StepRunsTheFetchedCommand := by
  intro s nbits w i hfault hdecode
  have hi : decode (BitVec.ofNat 36 (w % 2 ^ nbits)) = i := by
    rw [decodeTableWord] at hdecode
    split at hdecode <;> cases hdecode
    rfl
  subst hi
  exact ⟨step_of_command (s := s.withFetchWord nbits w) hfault rfl rfl rfl, rfl⟩

/-- Settles O8: halted or not, the arbiter finds nothing to run. -/
theorem idleStepChangesNothing : Obligations.IdleStepChangesNothing := by
  intro s hrst hcmd hsample
  refine ⟨s.beginStep, ?_, rfl, rfl, rfl⟩
  by_cases hfault : s.regs.fault = 0
  · have hcommand : s.beginStep.runCommand = .next s.beginStep := if_neg (Bool.eq_false_iff.mp hcmd)
    rw [step_of_live hrst hfault, hcommand, andThen_next, runSample_of_no_sample hsample]
  · exact step_of_halted hrst hfault

/-- START of a sensorless block in Stopped is one commutation from sector 0 in the commanded direction (R82). -/
theorem start_of_sensorless {s : State} (hfault : s.regs.fault = 0) (hstate : s.regs.state = .stopped)
    (hsk : s.regs.sk = .sensorless) :
    exec .start s = .next (s.launch.commutateTo (nextSector s.regs.cmdDir 0) s.ports.nowMs) := by
  have hresolve : s.launch.resolveSector = s.launch := by simp [State.resolveSector, hsk]
  have hcommutate := commutate_of_legal (s := s.launch) (Nat.zero_le 5) s.ports.nowMs
  exact exec_of_effect (.inl hfault) (.inl ⟨hstate, by rw [hresolve, hcommutate]; rfl⟩)

/-- A step line that names one command runs it, with the line's frame as the step's inputs (R62). -/
theorem step_of_commandLine {s : State} {i : Instr} {w : CmdWord} (hfault : s.regs.fault = 0)
    (hwellFormed : i.wellFormed = true) (hword : encode i = some w) (now : Millis) (prev : Ports) (rest : List Ports) :
    let p := StepLine.frame prev { now := now, command := some i }
    step { s with pendingInputs := p :: rest } =
      exec i { s with ports := p, pendingInputs := rest, tick := s.tick + 1, pwmEvents := [] } := by
  intro p
  have hvalid : p.cmdValid = true := by simp [p, StepLine.frame, hword]
  have hp : p.cmdWord = w := by simp [p, StepLine.frame, hword]
  rw [step_of_command (s := { s with pendingInputs := p :: rest }) hfault rfl hvalid rfl]
  have hdecode : decode p.cmdWord = i := hp ▸ decode_encode hwellFormed hword
  exact congrArg (exec · _) hdecode

/-- Settles O18: SET_DIR's step writes `CMD_DIR`, and START's step commutates from sector 0 in that direction. -/
theorem startTowardLatchesTheDirection : Obligations.StartTowardLatchesTheDirection := by
  intro s prev d now hfault hstate hsk
  let p := StepLine.frame prev { now := now, command := some (.setDir d) }
  let q := StepLine.frame p { now := now, command := some .start }
  let directed : State := { s with
    regs := { s.regs with cmdDir := d }, ports := p, pendingInputs := [q], tick := s.tick + 1, pwmEvents := [] }
  have hdir : step { s with pendingInputs := [p, q] } = .next directed :=
    (step_of_commandLine hfault rfl rfl now prev [q]).trans (exec_of_effect (.inl hfault) rfl)
  have hstart := (step_of_commandLine (s := directed) (i := .start) hfault rfl rfl now p []).trans
    (start_of_sensorless hfault hstate hsk)
  exact ⟨directed, _, hdir, hstart, rfl, rfl, rfl, by cases d <;> rfl, rfl, rfl⟩

/-! ## The inputs an operation reads -/

/-- The state with other inputs sampled in the step. -/
def withPorts (s : State) (q : Ports) : State := { s with ports := q }

/-- `q` agrees with the step's inputs on the ports that R49 lets the operation read. -/
structure Agrees (i : Instr) (s : State) (q : Ports) : Prop where
  straps : i = .init ∨ i = .reset → q.cfgSensorKind = s.ports.cfgSensorKind ∧ q.cfgHallSel = s.ports.cfgHallSel
  hall : i = .init ∨ i = .reset ∨ i = .start ∨ i = .resolveSector → q.hallIn = s.ports.hallIn
  clock : i = .start ∨ (∃ va vb vc vbus, i = .sample va vb vc vbus) → q.nowMs = s.ports.nowMs

section
variable {s : State} {q : Ports}

theorem resolveSector_withPorts (hhall : q.hallIn = s.ports.hallIn) :
    (withPorts s q).resolveSector = withPorts s.resolveSector q := by
  rw [resolveSector_eq, resolveSector_eq s, ← hhall]
  rfl

theorem initWith_withPorts (hkind : q.cfgSensorKind = s.ports.cfgSensorKind) (hhall : q.hallIn = s.ports.hallIn)
    (table : HallEntries) : (withPorts s q).initWith table = withPorts (s.initWith table) q := by
  rw [initWith_eq, initWith_eq s, ← hkind, ← hhall]
  rfl

variable (s q) in
theorem commutate_withPorts (now : Millis) : (withPorts s q).commutate now = withPorts (s.commutate now) q := by
  rcases commutate_cases s now with ⟨hsector, e⟩ | ⟨hsector, e⟩ <;> rw [e]
  · exact commutate_of_illegal (s := withPorts s q) hsector now
  · exact commutate_of_legal (s := withPorts s q) hsector now

theorem sampleLocked_withPorts (hnow : q.nowMs = s.ports.nowMs) :
    (withPorts s q).sampleLocked = withPorts s.sampleLocked q := by
  rw [sampleLocked_eq, sampleLocked_eq s, ← hnow]
  rfl

/-- Only a designed PROMOTE reads the inputs. -/
theorem promoteCheck_withPorts (hpromote : s.params.promote ≠ .designed) :
    (withPorts s q).promoteCheck = withPorts s.promoteCheck q := by
  have hholds : (withPorts s q).promoteHolds = s.promoteHolds := by
    cases hp : s.params.promote with
    | never => rw [promoteHolds_never hp, promoteHolds_never (s := withPorts s q) hp]
    | always => rw [promoteHolds_always hp, promoteHolds_always (s := withPorts s q) hp]
    | designed => exact absurd hp hpromote
  rw [promoteCheck_eq, promoteCheck_eq s, hholds]
  rfl

theorem sampleStarting_withPorts (hpromote : s.params.promote ≠ .designed) (hfault : s.regs.fault = 0)
    (hnow : q.nowMs = s.ports.nowMs) (vbus : Volt) :
    (withPorts s q).sampleStarting vbus = withPorts (s.sampleStarting vbus) q := by
  rcases Nat.lt_or_ge 5 s.regs.sector.toNat with hsector | hsector
  · rw [sampleStarting_of_illegal_sector hsector]
    exact sampleStarting_of_illegal_sector (s := withPorts s q) hsector vbus
  cases hdsel : phaseOfCode s.regs.dsel with
  | none =>
    rw [sampleStarting_of_illegal_selector hsector hdsel]
    exact sampleStarting_of_illegal_selector (s := withPorts s q) hsector hdsel vbus
  | some p =>
    rw [sampleStarting_of_legal hsector hdsel hfault,
      sampleStarting_of_legal (s := withPorts s q) hsector hdsel hfault]
    have hcommutes : (withPorts s q).commutesOn p vbus = s.commutesOn p vbus := by
      simp only [State.commutesOn, now_eq, ← hnow]
      rfl
    rw [hcommutes, ← hnow]
    split
    · exact promoteCheck_withPorts (s := s.commutateTo _ _) hpromote
    · exact promoteCheck_withPorts hpromote

end

/-- Under inputs that agree on what it reads, an operation has the same effect. -/
theorem effect_withPorts {i : Instr} {s t : State} {q : Ports} (hpromote : s.params.promote ≠ .designed)
    (hq : Agrees i s q) (hfault : s.regs.fault = 0 ∨ i = .reset) (h : Effect i s t) :
    Effect i (withPorts s q) (withPorts t q) := by
  cases i with
  | nop | stop | setDir | setDuty | getState | lock =>
    cases h
    rfl
  | reserved op arg =>
    obtain ⟨hpolicy, rfl⟩ := h
    exact ⟨hpolicy, rfl⟩
  | init =>
    obtain ⟨table, htable, rfl⟩ := h
    obtain ⟨hkind, hsel⟩ := hq.straps (.inl rfl)
    exact ⟨table, by rwa [← hsel] at htable, (initWith_withPorts hkind (hq.hall (.inl rfl)) table).symm⟩
  | reset =>
    obtain ⟨table, htable, rfl⟩ := h
    obtain ⟨hkind, hsel⟩ := hq.straps (.inr rfl)
    exact ⟨table, by rwa [← hsel] at htable,
      (initWith_withPorts (s := s.resetRegisters) hkind (hq.hall (.inr (.inl rfl))) table).symm⟩
  | start =>
    rcases h with ⟨hstate, rfl⟩ | ⟨hstate, rfl⟩
    · have hhall : q.hallIn = s.launch.ports.hallIn := hq.hall (.inr (.inr (.inl rfl)))
      have hnow : q.nowMs = s.ports.nowMs := hq.clock (.inl rfl)
      have hlaunch : (withPorts s q).launch = withPorts s.launch q := by simp only [State.launch, now_eq, ← hnow]; rfl
      refine .inl ⟨hstate, ?_⟩
      rw [hlaunch, resolveSector_withPorts hhall, commutate_withPorts, ← hnow]
      rfl
    · exact .inr ⟨hstate, rfl⟩
  | sample va vb vc vbus =>
    have hfault : s.regs.fault = 0 := hfault.resolve_right (by simp)
    have hnow : q.nowMs = s.ports.nowMs := hq.clock (.inr ⟨va, vb, vc, vbus, rfl⟩)
    rcases h with ⟨hstate, rfl⟩ | ⟨hstate, rfl⟩ | ⟨hstate, rfl⟩
    · exact .inl ⟨hstate, (sampleLocked_withPorts (s := s.refresh va vb vc) hnow).symm⟩
    · exact .inr (.inl ⟨hstate, (sampleStarting_withPorts (s := s.refresh va vb vc) hpromote hfault hnow vbus).symm⟩)
    · exact .inr (.inr ⟨hstate, rfl⟩)
  | resolveSector =>
    cases h
    exact (resolveSector_withPorts (hq.hall (.inr (.inr (.inr rfl))))).symm
  | commutate now =>
    cases h
    exact (commutate_withPorts s q now).symm

theorem exec_withPorts {i : Instr} {s t : State} {q : Ports} (hpromote : s.params.promote ≠ .designed)
    (hq : Agrees i s q) (h : exec i s = .next t) : exec i (withPorts s q) = .next (withPorts t q) := by
  rcases exec_eq_next h with ⟨hfault, hreset, rfl⟩ | ⟨hfault, heffect⟩
  · exact exec_halted (s := withPorts t q) hfault hreset
  · exact exec_of_effect (s := withPorts s q) hfault (effect_withPorts hpromote hq hfault heffect)

/-- Settles O45: the statement's three agreements are what the operation's effect needs. -/
theorem operationsReadOnlyTheirInputs : Obligations.OperationsReadOnlyTheirInputs :=
  fun _ _ _ _ hpromote hstraps hhall hclock h => exec_withPorts hpromote ⟨hstraps, hhall, hclock⟩ h

/-! ## The straps in a step without reset and INIT -/

/-- The inputs of a step with other straps. -/
def otherStraps (p : Ports) (kind : BitVec 1) (sel : BitVec 4) : Ports := { p with cfgSensorKind := kind, cfgHallSel := sel }

/-- Other straps agree on everything that operations other than INIT and RESET read. -/
theorem agrees_otherStraps {i : Instr} {s : State} (hinit : i ≠ .init) (hreset : i ≠ .reset) (kind : BitVec 1)
    (sel : BitVec 4) : Agrees i s (otherStraps s.ports kind sel) :=
  ⟨fun h => (h.elim hinit hreset).elim, fun _ => rfl, fun _ => rfl⟩

/-- A command phase without INIT spares `SK` and `HDT`. -/
theorem spares_runCommand {s u : State} (hinit : s.ports.cmdValid = true → decode s.ports.cmdWord ≠ .init)
    (h : s.runCommand = .next u) : Spares 3 s u := by
  rcases runCommand_eq_next h with ⟨hcmd, he⟩ | ⟨-, rfl⟩
  · exact spares_exec (hinit hcmd) (decode_ne_reset _) he
  · exact Spares.refl _

section
variable (kind : BitVec 1) (sel : BitVec 4)

/-- A command phase without INIT answers alike under other straps. -/
theorem runCommand_otherStraps {s u : State} (hpromote : s.params.promote ≠ .designed)
    (hinit : s.ports.cmdValid = true → decode s.ports.cmdWord ≠ .init) (h : s.runCommand = .next u) :
    (withPorts s (otherStraps s.ports kind sel)).runCommand = .next (withPorts u (otherStraps s.ports kind sel)) := by
  rcases runCommand_eq_next h with ⟨hcmd, he⟩ | ⟨hcmd, rfl⟩
  · exact (if_pos hcmd).trans
      (exec_withPorts hpromote (agrees_otherStraps (hinit hcmd) (decode_ne_reset _) kind sel) he)
  · exact if_neg (Bool.eq_false_iff.mp hcmd)

theorem runSample_otherStraps {s t : State} (hpromote : s.params.promote ≠ .designed) (h : s.runSample = .next t) :
    (withPorts s (otherStraps s.ports kind sel)).runSample = .next (withPorts t (otherStraps s.ports kind sel)) := by
  rcases runSample_eq_next h with ⟨hfault, hsample, he⟩ | ⟨hnone, rfl⟩
  · exact ((if_pos hfault).trans (if_pos hsample)).trans
      (exec_withPorts hpromote (agrees_otherStraps (by simp [sampleInstr]) (by simp [sampleInstr]) kind sel) he)
  · unfold State.runSample
    split
    · exact if_neg (Bool.eq_false_iff.mp (hnone.resolve_left (not_not.mpr ‹_›)))
    · rfl

end

/-- Settles O44: neither the command nor the SAMPLE of such a step loads the straps or reads them. -/
theorem strapsMatterOnlyAtResetAndInit : Obligations.StrapsMatterOnlyAtResetAndInit := by
  intro s p rest kind sel hrst hop
  let before : State := { s with pendingInputs := p :: rest }
  have hinit : before.beginStep.ports.cmdValid = true → decode before.beginStep.ports.cmdWord ≠ .init :=
    fun hcmd e => hop ⟨hcmd, decode_eq_init e⟩
  refine ⟨fun t h => ?_, fun hpromote t h => ⟨withPorts t (otherStraps p kind sel), ?_, rfl, rfl⟩⟩
  · rcases step_eq_next h with ⟨hr, -⟩ | ⟨-, -, rfl⟩ | ⟨-, -, u, hu, ht⟩
    · exact absurd hr (Bool.eq_false_iff.mp hrst)
    · exact ⟨rfl, rfl⟩
    · have hspares := (spares_runCommand hinit hu).trans (spares_runSample ht)
      exact ⟨hspares.sk, hspares.hdt⟩
  · rcases step_eq_next h with ⟨hr, -⟩ | ⟨-, hfault, rfl⟩ | ⟨-, hfault, u, hu, ht⟩
    · exact absurd hr (Bool.eq_false_iff.mp hrst)
    · exact step_of_halted (s := { s with pendingInputs := otherStraps p kind sel :: rest }) hrst hfault
    · have hlogs : Logs 3 before.beginStep u := (spares_runCommand hinit hu).logs
      have hports : u.ports = p := hlogs.ports
      have hcommand := runCommand_otherStraps (s := before.beginStep) kind sel hpromote hinit hu
      have hsample := runSample_otherStraps kind sel (hlogs.params ▸ hpromote) ht
      rw [hports] at hsample
      exact (step_of_live (s := { s with pendingInputs := otherStraps p kind sel :: rest }) hrst hfault).trans
        ((congrArg (andThen · State.runSample) hcommand).trans hsample)

end Sys2Proof.Proofs
end

section
/-! The family 41_position_sensor.md: RESOLVE_SECTOR with and without a Hall sensor (R65, R66), the invalid Hall codes
(R67), and the entry 7 of a handed-in state. -/

namespace Sys2Proof.Proofs

open Machine Laws

/-! ## The courses of RESOLVE_SECTOR -/

section
variable {s : State}

/-- With a Hall sensor any entry but the sentinel becomes the sector. -/
theorem resolveSector_of_entry {x : Sector} (hsk : s.regs.sk = .hall) (hentry : hallEntry s.regs.hdt s.ports.hallIn = x)
    (hx : x ≠ 6) : s.resolveSector = { s with regs := { s.regs with sector := x } } := by
  subst hentry
  rw [resolveSector_eq, if_pos ⟨hsk, hx⟩]

/-- The sentinel is ignored, whatever the sensor kind. -/
theorem resolveSector_of_sentinel (hentry : hallEntry s.regs.hdt s.ports.hallIn = 6) : s.resolveSector = s := by
  rw [resolveSector_eq, if_neg fun h => h.2 hentry]

theorem resolveSector_of_sensorless (hsk : s.regs.sk = .sensorless) : s.resolveSector = s := by
  rw [resolveSector_eq, if_neg (by simp [hsk])]

theorem exec_resolveSector (hfault : s.regs.fault = 0) : exec .resolveSector s = .next s.resolveSector :=
  exec_of_effect (.inl hfault) rfl

end

/-- Settles O26: an entry 0 to 5 is not the sentinel, and the other two courses write nothing. -/
theorem resolveSectorResult : Obligations.ResolveSectorResult := by
  intro s hfault
  rw [exec_resolveSector hfault]
  refine ⟨fun hsk hle => ?_, fun _ hentry => ?_, fun hsk => ?_⟩
  · have hne : hallEntry s.regs.hdt s.ports.hallIn ≠ 6 := fun h => absurd (h ▸ hle) (by decide)
    rw [resolveSector_of_entry hsk rfl hne]
  · rw [resolveSector_of_sentinel hentry]
  · rw [resolveSector_of_sensorless hsk]

/-! ## After an INIT -/

@[simp] theorem initWith_hdt (s : State) (table : HallEntries) : (s.initWith table).regs.hdt = table := by rw [initWith_eq]

@[simp] theorem initWith_fault (s : State) (table : HallEntries) : (s.initWith table).regs.fault = s.regs.fault := by
  rw [initWith_eq]

/-- Settles O27: INIT raises no fault and loads a selectable table, which has the sentinel at the codes 0 and 7. -/
theorem invalidHallCodesAreIgnoredAfterInit : Obligations.InvalidHallCodesAreIgnoredAfterInit := by
  intro s t hfault hinit q hq
  obtain ⟨table, htable, rfl⟩ : Effect .init s t := by
    rcases exec_eq_next hinit with ⟨hhalted, -⟩ | ⟨-, heffect⟩
    · exact absurd hfault hhalted
    · exact heffect
  obtain ⟨hzero, hseven⟩ := hallTables_sentinel htable
  have hentry : hallEntry (s.initWith table).regs.hdt q.hallIn = 6 := by
    rw [initWith_hdt]
    rcases hq with h | h <;> rwa [h]
  have hlive : (s.initWith table).regs.fault = 0 := (initWith_fault s table).trans hfault
  exact exec_of_effect (.inl hlive) (resolveSector_of_sentinel (s := { s.initWith table with ports := q }) hentry).symm

/-! ## A contract violation in START -/

/-- Raising a fault sets `FAULT` and makes the outputs dormant; all else stands (R110). -/
theorem raiseFault_eq (s : State) (code : FaultCode) :
    s.raiseFault code =
      { s with regs := { s.regs with fault := code, pwm := dormantPwm }, pwmEvents := s.pwmEvents ++ dormantEvents } := by
  simp [State.raiseFault, State.allDormant, State.pwmWrite, PwmEvent.apply, PerPhase.set]

/-- Settles O53: RESOLVE_SECTOR writes the 7, and the COMMUTATE that ends START finds it. -/
theorem handedInSevenIsWrittenToTheSector : Obligations.HandedInSevenIsWrittenToTheSector := by
  intro s hfault hsk hentry
  refine ⟨?_, fun hstate => exec_of_effect (.inl hfault) (.inl ⟨hstate, ?_⟩)⟩
  · rw [exec_resolveSector hfault, resolveSector_of_entry hsk hentry (by decide)]
  · have hresolve : s.launch.resolveSector = { s.launch with regs := { s.launch.regs with sector := 7 } } :=
      resolveSector_of_entry (s := s.launch) hsk hentry (by decide)
    rw [hresolve, commutate_of_illegal (by simp), raiseFault_eq]
    rfl

end Sys2Proof.Proofs
end

section
/-! The family 42_commutation.md: the duty mapper (R72, R76), what COMMUTATE leaves from a legal sector (R70 to R75), and
the revolution of six commutations (R76). -/

namespace Sys2Proof.Proofs

open Machine Laws

/-! ## The duty mapper -/

theorem halfDuty_eq (d : Duty) : halfDuty d = d.toNat / 2 := Nat.shiftRight_one d.toNat

/-- The mapper's duties are those of the statements. -/
theorem highSideDuty_eq (d : Duty) : highSideDuty d = highDuty d := by rw [highSideDuty, halfDuty_eq]; rfl

theorem lowSideDuty_eq (d : Duty) : lowSideDuty d = lowDuty d := by rw [lowSideDuty, halfDuty_eq]; rfl

/-- Narrowing to 16 bits loses nothing (R72). -/
theorem highSideDuty_toNat (d : Duty) : (highSideDuty d).toNat = 32767 + d.toNat / 2 := by
  rw [highSideDuty_eq, highDuty, BitVec.toNat_ofNat]
  omega

theorem lowSideDuty_toNat (d : Duty) : (lowSideDuty d).toNat = 32767 - d.toNat / 2 := by
  rw [lowSideDuty_eq, lowDuty, BitVec.toNat_ofNat]
  omega

/-- Settles O30: with both duties exact the laws are arithmetic on half a 16-bit duty. -/
theorem dutySplitLaws : Obligations.DutySplitLaws := by
  intro d
  rw [highSideDuty_toNat, lowSideDuty_toNat]
  omega

/-! ## One commutation -/

/-- The sequencer is that of the statements. -/
theorem nextSector_eq (d : Direction) (sector : Sector) : nextSector d sector = sectorAfter d sector.toNat := by
  cases d <;> rfl

/-- Row by row, the three writes of R73 name each phase once, so nothing of the old outputs is left. -/
theorem set_row_eq_drivenOutput (table : PhaseTable) (k : Fin 6) (pwm : PerPhase PwmOut) (d : Duty) :
    PerPhase.set (PerPhase.set (PerPhase.set pwm (romPhase table k).dorm ⟨.dormant, d⟩)
        (romPhase table k).hi ⟨.driven, highDuty d⟩) (romPhase table k).lo ⟨.driven, lowDuty d⟩ =
      ⟨drivenOutput (romPhase table k) d .a, drivenOutput (romPhase table k) d .b,
        drivenOutput (romPhase table k) d .c⟩ := by
  cases table <;> fin_cases k <;> rfl

/-- The commutation of the meanings is the one the statements write out from the rules. -/
theorem commutateTo_eq_afterCommutation (s : State) (k : Fin 6) (time : Millis) :
    s.commutateTo k time = s.afterCommutation k time := by
  have hregs : (s.commutateTo k time).regs = (s.afterCommutation k time).regs := by
    rw [commutateTo_regs, highSideDuty_eq, lowSideDuty_eq, set_row_eq_drivenOutput]
    rfl
  have hevents : (s.commutateTo k time).pwmEvents = (s.afterCommutation k time).pwmEvents := by
    rw [commutateTo_pwmEvents, highSideDuty_eq, lowSideDuty_eq]
    rfl
  calc s.commutateTo k time
      = { s with regs := (s.commutateTo k time).regs, pwmEvents := (s.commutateTo k time).pwmEvents } := rfl
    _ = s.afterCommutation k time := by rw [hregs, hevents]; rfl

/-- From a legal sector COMMUTATE commutates into the next sector, whatever the motor state. -/
theorem exec_commutate {s : State} (hfault : s.regs.fault = 0) (hsector : s.regs.sector.toNat ≤ 5) (time : Millis) :
    exec (.commutate time) s = .next (s.afterCommutation (sectorAfter s.regs.direction s.regs.sector.toNat) time) := by
  rw [← nextSector_eq, ← commutateTo_eq_afterCommutation, ← commutate_of_legal hsector]
  exact exec_of_effect (.inl hfault) rfl

/-- Settles O28: the motor state matters only to the time record. -/
theorem commutateResult : Obligations.CommutateResult :=
  fun _ time hfault _ hsector => exec_commutate hfault hsector time

/-- Settles O54: the same commutation, and outside Starting it records no time. -/
theorem commutateOutsideItsPrecondition : Obligations.CommutateOutsideItsPrecondition := by
  intro s time hfault hrest hsector
  have hstate : s.regs.state ≠ .starting := fun h => hrest (.inl h)
  exact ⟨_, exec_commutate hfault hsector time, rfl, if_neg hstate⟩

/-! ## A revolution -/

/-- What a commutation adds to the sector, modulo 6 (R70). -/
def stride : Direction → Fin 6
  | .forward => 1
  | .reverse => 5

theorem sectorAfter_eq_add_stride (d : Direction) (k : Fin 6) : sectorAfter d k.val = k + stride d := by
  cases d <;> revert k <;> decide

/-- Either stride generates the six sectors: its first multiple that is 0 is the sixth. -/
theorem nsmul_stride_ne_zero (d : Direction) {n : Nat} (hpos : 0 < n) (hlt : n < 6) : n • stride d ≠ 0 := by
  cases d <;> interval_cases n <;> decide

theorem six_nsmul_stride (d : Direction) : 6 • stride d = 0 := by cases d <;> decide

/-- `n` commutations from sector `k` all go through and end `n` strides further, in the same direction. -/
theorem execTimes_commutate (time : Millis) (n : Nat) {s : State} {k : Fin 6} (hfault : s.regs.fault = 0)
    (hsector : s.regs.sector = sectorBits k) :
    ∃ u, execTimes (.commutate time) n s = .next u ∧ u.regs.sector = sectorBits (k + n • stride s.regs.direction) ∧
      u.regs.direction = s.regs.direction := by
  induction n generalizing s k with
  | zero => exact ⟨s, rfl, by simpa using hsector, rfl⟩
  | succ n ih =>
    have hfirst : exec (.commutate time) s = .next (s.afterCommutation (k + stride s.regs.direction) time) := by
      rw [exec_commutate hfault (hsector ▸ sectorBits_le k), hsector, sectorBits_legal, sectorAfter_eq_add_stride]
    obtain ⟨u, hrest, hu, hdir⟩ :=
      ih (s := s.afterCommutation (k + stride s.regs.direction) time) (k := k + stride s.regs.direction) hfault rfl
    refine ⟨u, ?_, ?_, hdir⟩
    · rw [execTimes, hfirst, andThen_next, hrest]
    · rw [hu, succ_nsmul', ← add_assoc]
      rfl

/-- Settles O29: six strides make 0 modulo 6, and one to five do not. -/
theorem sixCommutationsAreOneRevolution : Obligations.SixCommutationsAreOneRevolution := by
  intro s time hfault hlegal
  obtain ⟨k, hk⟩ := exists_sectorBits s.regs.sector hlegal
  refine ⟨?_, fun n u hpos hlt hu hsame => ?_⟩
  · obtain ⟨u, hu, hsector, hdir⟩ := execTimes_commutate time 6 hfault hk.symm
    exact ⟨u, hu, by rw [hsector, six_nsmul_stride, add_zero, hk], hdir⟩
  · obtain ⟨v, hv, hsector, -⟩ := execTimes_commutate time n hfault hk.symm
    obtain rfl : v = u := by simpa [hv] using hu
    have hturned : k + n • stride s.regs.direction = k :=
      sectorBits_injective _ _ (by rw [← hsector, hsame, hk])
    exact nsmul_stride_ne_zero _ hpos hlt (by simpa using hturned)

end Sys2Proof.Proofs
end

section
/-! The family 43_state_machine.md: INIT, START, STOP and LOCK (R81 to R85), the frame of every operation (10_state.md,
section 6), and the edges of the motor state (R79, R80, R86). -/

namespace Sys2Proof.Proofs

open Machine Laws

/-! ## The lifecycle commands -/

/-- Settles O17: RESOLVE_SECTOR after the launch leaves the sector `n`, and COMMUTATE goes on from it. -/
theorem startFromStopped : Obligations.StartFromStopped := by
  intro s n hfault hstate hle hn
  have hsector : s.launch.resolveSector.regs.sector.toNat = n := by
    rw [resolveSector_eq, hn]
    exact apply_ite BitVec.toNat _ _ _
  refine exec_of_effect (.inl hfault) (.inl ⟨hstate, ?_⟩)
  rw [commutate_of_legal (hsector ▸ hle), nextSector_eq, commutateTo_eq_afterCommutation, hsector, resolveSector_eq]
  rfl

/-- Settles O16: a selectable table is all INIT needs, and its effect is the one stated. -/
theorem initResult : Obligations.InitResult := by
  intro s table hfault htable
  refine exec_of_effect (.inl hfault) ⟨table, htable, ?_⟩
  rw [initWith_eq]
  rfl

/-- Settles O19: outside Stopped the effect of START is to stay. -/
theorem startElsewhereIsIgnored : Obligations.StartElsewhereIsIgnored :=
  fun _ hfault hstate => exec_of_effect (.inl hfault) (.inr ⟨hstate, rfl⟩)

/-- The three dormant writes leave nothing of the outputs before them. -/
theorem allDormant_eq (s : State) :
    s.allDormant =
      { s with regs := { s.regs with pwm := dormantPwm }, pwmEvents := s.pwmEvents ++ dormantEvents } := by
  calc s.allDormant = { s with regs := s.allDormant.regs, pwmEvents := s.allDormant.pwmEvents } := rfl
    _ = _ := by rw [allDormant_regs, allDormant_pwmEvents]

theorem exec_stop {s : State} (hfault : s.regs.fault = 0) :
    exec .stop s =
      .next { s with
        regs := { s.regs with state := .stopped, pwm := dormantPwm }
        pwmEvents := s.pwmEvents ++ dormantEvents } := by
  refine exec_of_effect (.inl hfault) ?_
  rw [Effect, allDormant_eq]

/-- Settles O20: the registers STOP writes are constants, so a second STOP writes them again. -/
theorem stopIsTotalAndIdempotent : Obligations.StopIsTotalAndIdempotent := by
  intro s hfault
  refine ⟨exec_stop hfault, fun w hop => ?_, ⟨_, _, exec_stop hfault, exec_stop hfault, rfl⟩⟩
  obtain ⟨op, a, rfl⟩ := exists_cmdWordOf w
  obtain rfl : op = 0x3 := BitVec.eq_of_toNat_eq (by simpa using hop)
  exact decode_stop_word a

/-- Settles O21: the argument field is the quotient by 16 of the word's number. -/
theorem lockEntersLocked : Obligations.LockEntersLocked := by
  intro s hfault
  refine ⟨fun till => exec_of_effect (.inl hfault) ?_, fun w hop => ?_⟩
  · rw [Effect, allDormant_eq]
  · obtain ⟨op, a, rfl⟩ := exists_cmdWordOf w
    obtain rfl : op = 0x7 := BitVec.eq_of_toNat_eq (by simpa using hop)
    simp

/-! ## Frames -/

/-- To change nothing is in every frame. -/
theorem frameHolds_refl (i : Instr) (s : State) : FrameHolds i s s := by cases i <;> rfl

theorem frameHolds_commutate (s : State) (time now : Millis) : FrameHolds (.commutate time) s (s.commutate now) := by
  rcases commutate_cases s now with ⟨-, e⟩ | ⟨-, e⟩ <;> rw [e] <;> rfl

/-- START's own writes and its sector's are in its frame, and so is the COMMUTATE after them. -/
theorem frameHolds_launch_commutate (s : State) (time : Millis) :
    FrameHolds .start s (s.launch.resolveSector.commutate time) := by
  have hframe := frameHolds_commutate s.launch.resolveSector time time
  generalize s.launch.resolveSector.commutate time = t at hframe ⊢
  rw [resolveSector_eq] at hframe
  dsimp only [FrameHolds] at hframe ⊢
  rw [hframe]
  rfl

/-- The Starting branch raises a fault, commutates, promotes, or does the last two; no more. -/
theorem frameHolds_sampleStarting {s : State} (hfault : s.regs.fault = 0) (va vb vc vbus : Volt) :
    FrameHolds (.sample va vb vc vbus) s ((s.refresh va vb vc).sampleStarting vbus) := by
  rcases sampleStarting_cases (s := s.refresh va vb vc) hfault vbus with
    ⟨-, e⟩ | ⟨-, -, e⟩ | ⟨-, p, -, ⟨-, e⟩ | ⟨-, e⟩⟩ <;> rw [e]
  · rfl
  · rfl
  · rw [promoteCheck_eq]
    rfl
  · rw [promoteCheck_eq]
    rfl

/-- Settles O39: a halted operation changes nothing, and each effect is made of writes that its frame lists. -/
theorem everyOperationKeepsItsFrame : Obligations.EveryOperationKeepsItsFrame := by
  intro i s t h
  rcases exec_eq_next h with ⟨-, -, rfl⟩ | ⟨hfault, heffect⟩
  · exact frameHolds_refl i t
  cases i with
  | nop | setDir | setDuty | getState | stop | lock =>
    cases heffect
    rfl
  | reserved op arg => exact heffect.2
  | init | reset =>
    obtain ⟨table, -, rfl⟩ := heffect
    rw [initWith_eq]
    rfl
  | start =>
    rcases heffect with ⟨-, rfl⟩ | ⟨-, rfl⟩
    · exact frameHolds_launch_commutate s _
    · exact frameHolds_refl _ t
  | sample va vb vc vbus =>
    rcases heffect with ⟨-, rfl⟩ | ⟨-, rfl⟩ | ⟨-, rfl⟩
    · rw [sampleLocked_eq]
      rfl
    · exact frameHolds_sampleStarting (hfault.resolve_right (by simp)) va vb vc vbus
    · rfl
  | resolveSector =>
    cases heffect
    rw [resolveSector_eq]
    rfl
  | commutate time =>
    cases heffect
    exact frameHolds_commutate s time time

/-! ## The edges of the motor state -/

@[simp] theorem initWith_state (s : State) (table : HallEntries) : (s.initWith table).regs.state = .stopped := by
  rw [initWith_eq]

@[simp] theorem resolveSector_state (s : State) : s.resolveSector.regs.state = s.regs.state := by rw [resolveSector_eq]

@[simp] theorem commutate_state (s : State) (time : Millis) : (s.commutate time).regs.state = s.regs.state := by
  rcases commutate_cases s time with ⟨-, e⟩ | ⟨-, e⟩ <;> rw [e] <;> rfl

/-- The promotion check promotes only under a parameter other than never. -/
theorem promoteCheck_state (s : State) :
    s.promoteCheck.regs.state = s.regs.state ∨ (s.params.promote ≠ .never ∧ s.promoteCheck.regs.state = .running) := by
  rcases promoteCheck_cases s with ⟨hholds, e⟩ | ⟨-, e⟩ <;> rw [e]
  · exact .inr ⟨fun hnever => by simp [promoteHolds_never hnever] at hholds, rfl⟩
  · exact .inl rfl

/-- A SAMPLE in Starting stays there or promotes: a fault and a commutation leave the motor state. -/
theorem sampleStarting_state {s : State} (hfault : s.regs.fault = 0) (vbus : Volt) :
    (s.sampleStarting vbus).regs.state = s.regs.state ∨
      (s.params.promote ≠ .never ∧ (s.sampleStarting vbus).regs.state = .running) := by
  rcases sampleStarting_cases hfault vbus with ⟨-, e⟩ | ⟨-, -, e⟩ | ⟨-, p, -, ⟨-, e⟩ | ⟨-, e⟩⟩ <;> rw [e]
  · exact .inl rfl
  · exact .inl rfl
  · exact promoteCheck_state (s.commutateTo _ _)
  · exact promoteCheck_state s

/-- An operation keeps the motor state or takes an edge of its own (R79). -/
theorem exec_state {i : Instr} {s t : State} (h : exec i s = .next t) :
    t.regs.state = s.regs.state ∨ EdgeAllowed i s t.regs.state := by
  rcases exec_eq_next h with ⟨-, -, rfl⟩ | ⟨hfault, heffect⟩
  · exact .inl rfl
  cases i with
  | nop | setDir | setDuty | getState =>
    cases heffect
    exact .inl rfl
  | reserved op arg => exact .inl (heffect.2 ▸ rfl)
  | stop | lock =>
    cases heffect
    exact .inr rfl
  | init | reset =>
    obtain ⟨table, -, rfl⟩ := heffect
    exact .inr (initWith_state _ table)
  | start =>
    rcases heffect with ⟨hstate, rfl⟩ | ⟨-, rfl⟩
    · exact .inr ⟨hstate, by simp⟩
    · exact .inl rfl
  | sample va vb vc vbus =>
    rcases heffect with ⟨hstate, rfl⟩ | ⟨hstate, rfl⟩ | ⟨-, rfl⟩
    · rcases sampleLocked_cases (s.refresh va vb vc) with ⟨hafter, e⟩ | ⟨-, e⟩ <;> rw [e]
      · exact .inr (.inl ⟨hstate, hafter, rfl⟩)
      · exact .inl rfl
    · rcases sampleStarting_state (s := s.refresh va vb vc) (hfault.resolve_right (by simp)) vbus with e | ⟨hpromote, e⟩
      · exact .inl e
      · exact .inr (.inr ⟨hstate, hpromote, e⟩)
    · exact .inl rfl
  | resolveSector => exact .inl (heffect ▸ resolveSector_state s)
  | commutate time => exact .inl (heffect ▸ commutate_state s time)

/-- Settles O40: a change is not a stay. -/
theorem stateChangesOnlyAlongItsEdges : Obligations.StateChangesOnlyAlongItsEdges :=
  fun _ _ _ h hchange => (exec_state h).resolve_left hchange

/-- Only LOCK has an edge into Locked. -/
theorem eq_lock_of_edge {i : Instr} {s : State} (h : EdgeAllowed i s .locked) : ∃ till, i = .lock till := by
  cases i <;> simp [EdgeAllowed] at h ⊢

/-- The one edge into Running is the promotion, which the parameter never closes. -/
theorem promote_ne_never_of_edge {i : Instr} {s : State} (h : EdgeAllowed i s .running) : s.params.promote ≠ .never := by
  cases i <;> simp [EdgeAllowed] at h
  exact h.2

theorem decode_eq_lock {w : CmdWord} {till : Millis} (h : decode w = .lock till) : (opField w).toNat = 7 := by
  unfold decode at h
  split at h <;> cases h
  simp [*]

/-- An operation that enters Locked is LOCK (R80). -/
theorem eq_lock_of_enters_locked {i : Instr} {s t : State} (h : exec i s = .next t) (hs : s.regs.state ≠ .locked)
    (ht : t.regs.state = .locked) : ∃ till, i = .lock till := by
  have hedge := exec_state h
  rw [ht] at hedge
  exact eq_lock_of_edge (hedge.resolve_left hs.symm)

/-- Settles O41: RESET and SAMPLE are not LOCK, so the command is. -/
theorem lockedIsEnteredOnlyByLock : Obligations.LockedIsEnteredOnlyByLock := by
  intro s t h hs ht
  rcases step_eq_next h with ⟨-, hr⟩ | ⟨-, -, rfl⟩ | ⟨hrst, -, u, hu, hsample⟩
  · obtain ⟨_, ⟨⟩⟩ := eq_lock_of_enters_locked hr hs ht
  · exact absurd ht hs
  have hlocked : u.regs.state = .locked := by
    by_contra hstate
    rcases runSample_eq_next hsample with ⟨-, -, he⟩ | ⟨-, rfl⟩
    · obtain ⟨_, ⟨⟩⟩ := eq_lock_of_enters_locked he hstate ht
    · exact hstate ht
  rcases runCommand_eq_next hu with ⟨hcmd, he⟩ | ⟨-, rfl⟩
  · obtain ⟨till, hlock⟩ := eq_lock_of_enters_locked he hs hlocked
    exact ⟨hrst, hcmd, decode_eq_lock hlock⟩
  · exact absurd hlocked hs

/-- The motor is not in Running, and the parameter `PROMOTE` closes its edge there. -/
def NeverRuns (s : State) : Prop := s.params.promote = .never ∧ s.regs.state ≠ .running

/-- No operation writes the parameters, so none opens the edge into Running. -/
theorem exec_keeps_neverRuns {i : Instr} {s t : State} (hs : NeverRuns s) (h : exec i s = .next t) : NeverRuns t := by
  obtain ⟨hnever, hstate⟩ := hs
  refine ⟨(congrArg Params.promote (logs_exec h).params).trans hnever, fun hrunning => ?_⟩
  have hedge := exec_state h
  rw [hrunning] at hedge
  exact promote_ne_never_of_edge (hedge.resolve_left hstate.symm) hnever

/-- Settles O42: every operation a step runs keeps the motor out of Running. -/
theorem runningIsNotEnteredByDefault : Obligations.RunningIsNotEnteredByDefault := fun _ _ hnever h hstate =>
  (step_keeps (P := NeverRuns) (fun _ hs => hs) (fun _ _ _ _ => exec_keeps_neverRuns) ⟨hnever, hstate⟩ h).2

end Sys2Proof.Proofs
end

section
/-! The family 44_sample_dispatcher.md: the timestamp comparison and the watchdog (00 R12, R93), the branches of SAMPLE
(R90 to R95), and the arbiter (R97). -/

namespace Sys2Proof.Proofs

open Machine Laws

/-! ## Timestamps -/

/-- Under WRAP_SAFE a time is later when its distance modulo 2^32 is in the lower half of the clock's range (R12). -/
theorem after_wrapSafe_iff (a b : Millis) :
    after .wrapSafe a b = true ↔ 0 < (a - b).toNat ∧ (a - b).toNat < 2 ^ 31 := by
  rw [after, decide_eq_true_iff, BitVec.toInt_eq_toNat_cond]
  split <;> omega

theorem after_raw_iff (a b : Millis) : after .raw a b = true ↔ b.toNat < a.toNat := decide_eq_true_iff

/-- Settles O36: the deadline is 25 ms after the last commutation, in the clock's own arithmetic. -/
theorem watchdogFiresAfterTwentyFiveMilliseconds : Obligations.WatchdogFiresAfterTwentyFiveMilliseconds := by
  intro t last
  rw [watchdog, watchdog, after_wrapSafe_iff, after_raw_iff, watchdogMs]
  constructor
  · bv_omega
  · rw [BitVec.toNat_add]
    rfl

/-! ## The branches of SAMPLE -/

/-- Settles O33: the refresh is the whole effect. -/
theorem sampleOnlyRefreshesOutsideStartingAndLocked : Obligations.SampleOnlyRefreshesOutsideStartingAndLocked :=
  fun _ _ _ _ _ hfault hstate => exec_of_effect (.inl hfault) (.inr (.inr ⟨hstate, rfl⟩))

/-- Settles O34: the lockout has ended exactly when `after` holds under the comparison in force. -/
theorem lockoutExpiresInASample : Obligations.LockoutExpiresInASample := by
  intro s va vb vc vbus hfault hstate expired
  have hafter : after s.params.timeCmp s.ports.nowMs s.regs.lockUntilTime = true ↔ expired := by
    dsimp only [expired]
    cases s.params.timeCmp with
    | wrapSafe => exact after_wrapSafe_iff _ _
    | raw => exact after_raw_iff _ _
  have hsample : exec (.sample va vb vc vbus) s = .next (s.refresh va vb vc).sampleLocked :=
    exec_of_effect (.inl hfault) (.inl ⟨hstate, rfl⟩)
  rw [hsample]
  rcases sampleLocked_cases (s.refresh va vb vc) with ⟨h, e⟩ | ⟨h, e⟩ <;> rw [e]
  · exact ⟨fun _ => rfl, fun hnot => absurd (hafter.mp h) hnot⟩
  · exact ⟨fun hexpired => absurd (hafter.mpr hexpired) (Bool.eq_false_iff.mp h), fun _ => rfl⟩

theorem neutral_toNat (vbus : Volt) : (neutral vbus).toNat = vbus.toNat / 2 := by
  rw [neutral, BitVec.toNat_ushiftRight, Nat.shiftRight_one]

/-- The level test against half the bus, by sector parity (R92). -/
theorem zeroCross_neutral_iff (sector : Sector) (vd vbus : Volt) :
    zeroCross sector vd (neutral vbus) = true ↔
      (sector.toNat % 2 = 1 ∧ vd.toNat < vbus.toNat / 2) ∨ (sector.toNat % 2 = 0 ∧ vbus.toNat / 2 < vd.toNat) := by
  rw [zeroCross, neutral_toNat]
  split <;> simp only [decide_eq_true_iff] <;> omega

theorem promoteHolds_eq_promotes (s : State) : s.promoteHolds = promotes s.params.promote s.regs s.ports := rfl

/-- The promotion check that ends a SAMPLE in Starting leaves Running or Starting (R95). -/
theorem promoteCheck_of_starting {s : State} (hstate : s.regs.state = .starting) :
    s.promoteCheck =
      { s with
        regs := { s.regs with
          state := if promotes s.params.promote s.regs s.ports = true then .running else .starting } } := by
  rw [promoteCheck_eq, promoteHolds_eq_promotes, hstate]

/-- SAMPLE in Starting from a legal sector and selector: a commutation if a condition holds, then the promotion check. -/
theorem exec_sample_of_starting {s : State} {p : Phase} (va vb vc vbus : Volt) (hfault : s.regs.fault = 0)
    (hstate : s.regs.state = .starting) (hsector : s.regs.sector.toNat ≤ 5) (hdsel : s.regs.dsel = phaseCode p) :
    exec (.sample va vb vc vbus) s =
      .next (if (s.refresh va vb vc).commutesOn p vbus then
          (s.refresh va vb vc).afterCommutation (sectorAfter s.regs.direction s.regs.sector.toNat) s.ports.nowMs
        else s.refresh va vb vc).promoteCheck := by
  have hphase : phaseOfCode s.regs.dsel = some p := hdsel ▸ phaseOfCode_phaseCode p
  rw [← nextSector_eq, ← commutateTo_eq_afterCommutation]
  exact exec_of_effect (.inl hfault)
    (.inr (.inl ⟨hstate, (sampleStarting_of_legal (s := s.refresh va vb vc) hsector hphase hfault vbus).symm⟩))

/-- Settles O35: the two conditions are those of `commutesOn`, and neither course leaves Starting before PROMOTE. -/
theorem sampleInStartingResult : Obligations.SampleInStartingResult := by
  intro s va vb vc vbus p hfault hstate hsector hdsel vd zc wd fresh moved promoted
  have hcommutes : fresh.commutesOn p vbus = true ↔ zc ∨ wd :=
    (Bool.or_eq_true_iff ..).trans (or_congr_left (zeroCross_neutral_iff s.regs.sector vd vbus))
  have hsample : exec (.sample va vb vc vbus) s =
      .next (if fresh.commutesOn p vbus then moved else fresh).promoteCheck :=
    exec_sample_of_starting va vb vc vbus hfault hstate hsector hdsel
  have hmoved : moved.promoteCheck = promoted moved := promoteCheck_of_starting (s := moved) hstate
  have hfresh : fresh.promoteCheck = promoted fresh := promoteCheck_of_starting (s := fresh) hstate
  rw [hsample]
  exact ⟨fun h => by rw [if_pos (hcommutes.mpr h), hmoved], fun h => by rw [if_neg (mt hcommutes.mp h), hfresh]⟩

/-! ## The arbiter -/

/-- Reset pre-empts whatever else the step presents. -/
theorem step_of_reset {s : State} (hrst : s.nextPorts.rst = true) : step s = exec .reset s.beginStep := if_pos hrst

theorem runCommand_of_command {s : State} (hcmd : s.ports.cmdValid = true) :
    s.runCommand = exec (decode s.ports.cmdWord) s := if_pos hcmd

theorem runCommand_of_no_command {s : State} (hcmd : s.ports.cmdValid = false) : s.runCommand = .next s :=
  if_neg (Bool.eq_false_iff.mp hcmd)

theorem runSample_of_sample {s : State} (hfault : s.regs.fault = 0) (hsample : s.ports.sampleValid = true) :
    s.runSample = exec (sampleInstr s.ports) s := (if_pos hfault).trans (if_pos hsample)

/-- After a fault the step has ended. -/
theorem runSample_of_fault {s : State} (hfault : s.regs.fault ≠ 0) : s.runSample = .next s := if_neg hfault

/-- Settles O7: an operation leaves the step's inputs, so the SAMPLE after a command reads the same frame. -/
theorem stepIsTheArbiter : Obligations.StepIsTheArbiter := by
  intro s p rest b sample next
  let before : State := { s with pendingInputs := p :: rest }
  have hlive (hrst : p.rst = false) (hfault : s.regs.fault = 0) : next = andThen b.runCommand State.runSample :=
    step_of_live (s := before) hrst hfault
  refine ⟨fun hrst => step_of_reset (s := before) hrst, fun hrst hfault => step_of_halted (s := before) hrst hfault,
    fun hrst hfault hcmd hsample => ?_, fun hrst hfault hcmd hsample => ?_,
    fun hrst hfault hcmd hsample => step_of_command (s := before) hfault hrst hcmd hsample,
    fun hrst hfault hcmd hsample => ?_⟩
  · rw [hlive hrst hfault, runCommand_of_no_command hcmd, andThen_next, runSample_of_no_sample hsample]
  · rw [hlive hrst hfault, runCommand_of_no_command hcmd, andThen_next, runSample_of_sample (s := b) hfault hsample]
    rfl
  · have hboth : next = andThen (exec (decode p.cmdWord) b) State.runSample := by
      rw [hlive hrst hfault, runCommand_of_command hcmd]
    refine ⟨fun u hu => ?_, fun r hr => by rw [hboth, hr, andThen_refused]⟩
    have hports : u.ports = p := (logs_exec hu).ports
    rw [hboth, hu, andThen_next]
    refine ⟨fun hclear => ?_, runSample_of_fault⟩
    rw [runSample_of_sample hclear (hports ▸ hsample), hports]
    rfl

end Sys2Proof.Proofs
end

section
/-! The family 45_command_interface.md: the commands that change no motor state (R98 to R101) and the reserved opcodes
(R102), each on its command words and beside the SAMPLE of the same step. -/

namespace Sys2Proof.Proofs

open Machine Laws

/-! ## The words of an opcode -/

theorem exists_cmdWordOf_of_opcode {w : CmdWord} {op : Opcode} (h : (opField w).toNat = op.toNat) :
    ∃ a, w = cmdWordOf op a :=
  ⟨argField w, by rw [← BitVec.eq_of_toNat_eq h, cmdWordOf_fields]⟩

theorem decode_nop_of_opcode {w : CmdWord} (h : (opField w).toNat = 0) : decode w = .nop := by
  obtain ⟨a, rfl⟩ := exists_cmdWordOf_of_opcode (op := 0x0#4) h
  exact decode_nop_word a

theorem decode_getState_of_opcode {w : CmdWord} (h : (opField w).toNat = 6) : decode w = .getState := by
  obtain ⟨a, rfl⟩ := exists_cmdWordOf_of_opcode (op := 0x6#4) h
  exact decode_getState_word a

/-- SET_DIR's operand is bit 4 of its word (R99). -/
theorem decode_setDir_of_opcode {w : CmdWord} (h : (opField w).toNat = 4) :
    decode w = .setDir (if w.getLsbD 4 = true then .reverse else .forward) := by
  obtain ⟨a, rfl⟩ := exists_cmdWordOf_of_opcode (op := 0x4#4) h
  rw [decode_setDir_word, getLsbD_cmdWordOf 0x4#4 a 0, dirOperand]

/-- SET_DUTY's operand is bits 19 to 4 of its word (R100). -/
theorem decode_setDuty_of_opcode {w : CmdWord} (h : (opField w).toNat = 5) :
    decode w = .setDuty (BitVec.ofNat 16 (w.toNat / 16)) := by
  obtain ⟨a, rfl⟩ := exists_cmdWordOf_of_opcode (op := 0x5#4) h
  have hduty : BitVec.ofNat 16 a.toNat = dutyOperand a := by
    apply BitVec.eq_of_toNat_eq
    simp [dutyOperand_eq]
  rw [decode_setDuty_word, cmdWordOf_toNat_div, hduty]

/-- A word decodes to a reserved operation exactly if bit 3, the opcode's highest, is set (R102). -/
theorem reserved_word_iff (w : CmdWord) : w.getLsbD 3 = true ↔ ∃ op arg, decode w = .reserved op arg := by
  have hbit : w.getLsbD 3 = (opField w).getLsbD 3 := by simp [opField]
  obtain ⟨op, a, rfl⟩ := exists_cmdWordOf w
  rw [hbit, opField_cmdWordOf]
  refine ⟨fun h => ⟨op, a, decode_reserved_word h a⟩, fun ⟨_, _, h⟩ => ?_⟩
  by_contra hclear
  rcases opcode_named op hclear with rfl | rfl | rfl | rfl | rfl | rfl | rfl | rfl <;> simp at h

/-! ## The operations -/

theorem exec_nop {s : State} (hfault : s.regs.fault = 0) : exec .nop s = .next s := exec_of_effect (.inl hfault) rfl

theorem exec_getState {s : State} (hfault : s.regs.fault = 0) :
    exec .getState s = .next { s with regs := { s.regs with rsp := s.regs.state } } := exec_of_effect (.inl hfault) rfl

theorem exec_reserved_nop {s : State} (hfault : s.regs.fault = 0) (hpolicy : s.params.reservedOp = .nop) (op : Opcode)
    (arg : Arg) : exec (.reserved op arg) s = .next s := exec_of_effect (.inl hfault) ⟨hpolicy, rfl⟩

theorem exec_reserved_refuse {s : State} (hfault : s.regs.fault = 0) (hpolicy : s.params.reservedOp = .refuse)
    (op : Opcode) (arg : Arg) : exec (.reserved op arg) s = .refused (.reservedOpcode op) := by
  simp only [exec, execReserved, unlessHalted_live hfault, hpolicy]

/-- Settles O12: SET_DIR's effect, at the operand of each of its words. -/
theorem setDirWritesCmdDir : Obligations.SetDirWritesCmdDir := by
  intro s hfault
  have hexec (d : Direction) : exec (.setDir d) s = .next { s with regs := { s.regs with cmdDir := d } } :=
    exec_of_effect (.inl hfault) rfl
  exact ⟨hexec, fun w hop => by rw [decode_setDir_of_opcode hop, hexec]⟩

/-- Settles O13: SET_DUTY's effect, at the operand of each of its words. -/
theorem setDutyWritesCmdDuty : Obligations.SetDutyWritesCmdDuty := by
  intro s hfault
  have hexec (d : Duty) : exec (.setDuty d) s = .next { s with regs := { s.regs with cmdDuty := d } } :=
    exec_of_effect (.inl hfault) rfl
  exact ⟨hexec, fun w hop => by rw [decode_setDuty_of_opcode hop, hexec]⟩

/-! ## Beside a SAMPLE -/

/-- Where the command of a live step answers, the step goes on with the sample phase. -/
theorem step_of_command_next {s u : State} {i : Instr} (hfault : s.regs.fault = 0) (hrst : s.nextPorts.rst = false)
    (hcmd : s.nextPorts.cmdValid = true) (hdecode : decode s.nextPorts.cmdWord = i)
    (h : exec i s.beginStep = .next u) : step s = u.runSample := by
  rw [step_of_live hrst hfault, runCommand_of_command (s := s.beginStep) hcmd, beginStep_ports, hdecode, h,
    andThen_next]

theorem step_of_no_command {s : State} (hfault : s.regs.fault = 0) (hrst : s.nextPorts.rst = false)
    (hcmd : s.nextPorts.cmdValid = false) : step s = s.beginStep.runSample := by
  rw [step_of_live hrst hfault, runCommand_of_no_command (s := s.beginStep) hcmd, andThen_next]

/-- `RSP` is not in SAMPLE's frame. -/
theorem runSample_rsp {s t : State} (h : s.runSample = .next t) : t.regs.rsp = s.regs.rsp := by
  rcases runSample_eq_next h with ⟨-, -, he⟩ | ⟨-, rfl⟩
  · exact congrArg (·.regs.rsp) (everyOperationKeepsItsFrame _ _ _ he)
  · rfl

/-- The sample phase answers alike under inputs that present the same sample event and agree on what SAMPLE reads. -/
theorem runSample_withPorts {s t : State} {q : Ports} (hpromote : s.params.promote ≠ .designed)
    (hq : Agrees (sampleInstr s.ports) s q) (hvalid : q.sampleValid = s.ports.sampleValid)
    (hinstr : sampleInstr q = sampleInstr s.ports) (h : s.runSample = .next t) :
    (withPorts s q).runSample = .next (withPorts t q) := by
  rcases runSample_eq_next h with ⟨hfault, hsample, he⟩ | ⟨hfault | hsample, rfl⟩
  · have hexec : exec (sampleInstr q) (withPorts s q) = .next (withPorts t q) :=
      hinstr ▸ exec_withPorts hpromote hq he
    exact (runSample_of_sample (s := withPorts s q) hfault (hvalid.trans hsample)).trans hexec
  · exact runSample_of_fault (s := withPorts t q) hfault
  · exact runSample_of_no_sample (s := withPorts t q) (hvalid.trans hsample)

/-- Settles O11: a NOP leaves the sample phase the state it would have had without a command, and only a designed
PROMOTE could see there that `cmd_valid` was set. -/
theorem nopIsIdle : Obligations.NopIsIdle := by
  refine ⟨fun _ => exec_nop, fun _ => decode_nop_of_opcode, fun s p rest hpromote hrst hcmd hop => ?_⟩
  let quiet : Ports := { p with cmdValid := false }
  let before : State := { s with pendingInputs := p :: rest }
  let beforeQuiet : State := { s with pendingInputs := quiet :: rest }
  by_cases hfault : s.regs.fault = 0
  · obtain ⟨t, ht⟩ := runSample_next before.beginStep
    have hnop : step before = before.beginStep.runSample :=
      step_of_command_next hfault hrst hcmd (decode_nop_of_opcode hop) (exec_nop hfault)
    have hquiet : beforeQuiet.beginStep.runSample = .next (withPorts t quiet) :=
      runSample_withPorts (s := before.beginStep) hpromote ⟨fun _ => ⟨rfl, rfl⟩, fun _ => rfl, fun _ => rfl⟩ rfl rfl
        ht
    exact ⟨t, withPorts t quiet, hnop.trans ht,
      (step_of_no_command (s := beforeQuiet) hfault hrst rfl).trans hquiet, rfl, rfl⟩
  · exact ⟨before.beginStep, beforeQuiet.beginStep, step_of_halted (s := before) hrst hfault,
      step_of_halted (s := beforeQuiet) hrst hfault, rfl, rfl⟩

/-- Settles O14: GET_STATE's copy is made before the sample phase, which keeps it. -/
theorem getStateAnswersTheState : Obligations.GetStateAnswersTheState := by
  refine ⟨fun _ => exec_getState, fun _ => decode_getState_of_opcode, fun s hfault hrst hcmd hop => ?_⟩
  let answered : State := { s.beginStep with regs := { s.regs with rsp := s.regs.state } }
  have hanswer : step s = answered.runSample :=
    step_of_command_next hfault hrst hcmd (decode_getState_of_opcode hop) (exec_getState hfault)
  obtain ⟨t, ht⟩ := runSample_next answered
  have hrsp : t.regs.rsp = s.regs.state := runSample_rsp ht
  have hport : t.outputs.rspState = stateCode s.regs.state := congrArg stateCode hrsp
  have hcode {x : MotorState} (hstate : s.regs.state = x) : t.outputs.rspState = stateCode x :=
    hport.trans (congrArg stateCode hstate)
  exact ⟨t, hanswer.trans ht, hrsp, hport, hcode, hcode, hcode, hcode⟩

/-- Settles O15: under NOP the reserved operation leaves the state, so the step is its sample phase. -/
theorem reservedOpcodesFollowThePolicy : Obligations.ReservedOpcodesFollowThePolicy := by
  refine ⟨reserved_word_iff, fun s op arg hfault => ⟨fun hpolicy => exec_reserved_nop hfault hpolicy op arg,
    fun hpolicy => exec_reserved_refuse hfault hpolicy op arg⟩, fun s hfault hpolicy hrst hcmd hbit hsample => ?_⟩
  obtain ⟨op, arg, hdecode⟩ := (reserved_word_iff s.nextPorts.cmdWord).mp hbit
  have hidle : step s = s.beginStep.runSample :=
    step_of_command_next hfault hrst hcmd hdecode (exec_reserved_nop (s := s.beginStep) hfault hpolicy op arg)
  exact hidle.trans (runSample_of_sample (s := s.beginStep) hfault hsample)

end Sys2Proof.Proofs
end

section
/-! The family 60_exceptions.md: the contract violations and what they leave (R109, R110), which operations can raise
them, and the halt (R111). -/

namespace Sys2Proof.Proofs

open Machine Laws

/-! ## What a violation leaves -/

/-- Settles O37: COMMUTATE raises its fault on the state itself, SAMPLE on the refreshed one. -/
theorem contractViolationsRaiseTheirFault : Obligations.ContractViolationsRaiseTheirFault := by
  intro s hfault
  refine ⟨fun time hsector => exec_of_effect (.inl hfault) ?_,
    fun va vb vc vbus hstate hsector => exec_of_effect (.inl hfault) (.inr (.inl ⟨hstate, ?_⟩)),
    fun va vb vc vbus hstate hsector hdsel => exec_of_effect (.inl hfault) (.inr (.inl ⟨hstate, ?_⟩))⟩
  · rw [Effect, commutate_of_illegal hsector, raiseFault_eq]
    rfl
  · rw [sampleStarting_of_illegal_sector (s := s.refresh va vb vc) hsector, raiseFault_eq]
    rfl
  · have hphase : phaseOfCode s.regs.dsel = none := (phaseOfCode_eq_none_iff _).mpr hdsel
    rw [sampleStarting_of_illegal_selector (s := s.refresh va vb vc) hsector hphase, raiseFault_eq]
    rfl

/-! ## What raises a violation -/

@[simp] theorem resolveSector_fault (s : State) : s.resolveSector.regs.fault = s.regs.fault := by rw [resolveSector_eq]

@[simp] theorem promoteCheck_fault (s : State) : s.promoteCheck.regs.fault = s.regs.fault := by rw [promoteCheck_eq]

@[simp] theorem sampleLocked_fault (s : State) : s.sampleLocked.regs.fault = s.regs.fault := by rw [sampleLocked_eq]

theorem commutate_fault (s : State) (time : Millis) :
    (s.commutate time).regs.fault = s.regs.fault ∨ (5 < s.regs.sector.toNat ∧ (s.commutate time).regs.fault = 1) := by
  rcases commutate_cases s time with ⟨hsector, e⟩ | ⟨-, e⟩ <;> rw [e]
  · exact .inr ⟨hsector, rfl⟩
  · exact .inl rfl

theorem sampleStarting_fault {s : State} (hfault : s.regs.fault = 0) (vbus : Volt) :
    (s.sampleStarting vbus).regs.fault = s.regs.fault ∨
      (5 < s.regs.sector.toNat ∧ (s.sampleStarting vbus).regs.fault = 1) ∨
      (s.regs.sector.toNat ≤ 5 ∧ s.regs.dsel = 3 ∧ (s.sampleStarting vbus).regs.fault = 2) := by
  rcases sampleStarting_cases hfault vbus with
    ⟨hsector, e⟩ | ⟨hsector, hdsel, e⟩ | ⟨-, p, -, ⟨-, e⟩ | ⟨-, e⟩⟩ <;> rw [e]
  · exact .inr (.inl ⟨hsector, rfl⟩)
  · exact .inr (.inr ⟨hsector, hdsel, rfl⟩)
  · exact .inl (promoteCheck_fault (s.commutateTo _ _))
  · exact .inl (promoteCheck_fault s)

/-- START resolves its sector from 0, so an illegal one comes from a 7 in the Hall table. -/
theorem hall_seven_of_launch_illegal {s : State} (h : 5 < s.launch.resolveSector.regs.sector.toNat) :
    s.regs.sk = .hall ∧ hallEntry s.regs.hdt s.ports.hallIn = 7 := by
  have eq_seven : ∀ x : BitVec 3, x ≠ 6 → 5 < x.toNat → x = 7 := by decide
  rcases resolveSector_cases s.launch with ⟨hsk, hentry, e⟩ | ⟨-, e⟩ <;> rw [e] at h
  · exact ⟨hsk, eq_seven _ hentry h⟩
  · simp at h

/-- While the block is not halted an operation that goes on has its effect. -/
theorem effect_of_live {i : Instr} {s t : State} (hfault : s.regs.fault = 0) (h : exec i s = .next t) : Effect i s t := by
  rcases exec_eq_next h with ⟨hhalted, -⟩ | ⟨-, heffect⟩
  · exact absurd hfault hhalted
  · exact heffect

/-- Settles O38: the other effects leave `FAULT`, and these three keep it but for their own violations. -/
theorem onlyContractViolationsRaiseFaults : Obligations.OnlyContractViolationsRaiseFaults := by
  intro i s t hfault h hraised
  have heffect : Effect i s t := effect_of_live hfault h
  have hchanged : t.regs.fault ≠ s.regs.fault := hfault ▸ hraised
  cases i with
  | nop | setDir | setDuty | getState | stop | lock =>
    cases heffect
    exact absurd rfl hchanged
  | reserved op arg =>
    obtain ⟨-, rfl⟩ := heffect
    exact absurd rfl hchanged
  | init =>
    obtain ⟨table, -, rfl⟩ := heffect
    exact absurd (initWith_fault s table) hchanged
  | reset =>
    obtain ⟨table, -, rfl⟩ := heffect
    exact absurd (initWith_fault s.resetRegisters table) hraised
  | resolveSector =>
    cases heffect
    exact absurd (resolveSector_fault s) hchanged
  | commutate time =>
    cases heffect
    exact .inl ⟨⟨time, rfl⟩, (commutate_fault s time).resolve_left hchanged⟩
  | start =>
    rcases heffect with ⟨hstate, rfl⟩ | ⟨-, rfl⟩
    · have hkept : s.launch.resolveSector.regs.fault = s.regs.fault := resolveSector_fault s.launch
      obtain ⟨hsector, hcode⟩ := (commutate_fault s.launch.resolveSector _).resolve_left (hkept ▸ hchanged)
      obtain ⟨hsk, hentry⟩ := hall_seven_of_launch_illegal hsector
      exact .inr (.inl ⟨rfl, hstate, hsk, hentry, hcode⟩)
    · exact absurd rfl hchanged
  | sample va vb vc vbus =>
    rcases heffect with ⟨-, rfl⟩ | ⟨hstate, rfl⟩ | ⟨-, rfl⟩
    · exact absurd (sampleLocked_fault _) hchanged
    · exact .inr (.inr ⟨⟨va, vb, vc, vbus, rfl⟩, hstate,
        (sampleStarting_fault (s := s.refresh va vb vc) hfault vbus).resolve_left hchanged⟩)
    · exact absurd rfl hchanged

/-! ## The halt -/

/-- Settles O9: a halted step without reset only samples its inputs, which leaves `FAULT`. -/
theorem haltedBlockDoesNothing : Obligations.HaltedBlockDoesNothing := by
  intro s hfault
  refine ⟨fun i hi => exec_halted hfault hi,
    fun hrst => ⟨s.beginStep, step_of_halted hrst hfault, rfl, rfl, rfl, rfl⟩, fun t h hclear => ?_⟩
  rcases step_eq_next h with ⟨hrst, -⟩ | ⟨-, -, rfl⟩ | ⟨-, hlive, -⟩
  · exact hrst
  · exact absurd hclear hfault
  · exact absurd hlive hfault

end Sys2Proof.Proofs
end

section
/-! The family 70_reset_and_hazards.md: what RESET leaves (R122, R123), and the step that presents only `rst`. -/

namespace Sys2Proof.Proofs

open Machine Laws

/-- Settles O22: a selectable table is all RESET needs, and its effect is INIT's on the reset registers. -/
theorem resetResult : Obligations.ResetResult := by
  intro s table htable
  refine exec_of_effect (.inr rfl) ⟨table, htable, ?_⟩
  rw [initWith_eq]
  rfl

/-- Both admitted phase tables leave phase C dormant in sector 0, so `DSEL` resets to 2 under either. -/
theorem phaseCode_dorm_sector_zero (t : PhaseTable) : phaseCode (romPhase t 0).dorm = 2 := by cases t <;> rfl

/-- Settles O23: the reset frame selects table 0 and no Hall sensor, and the phase table enters only in `DSEL`. -/
theorem resetStepReachesTheResetState : Obligations.ResetStepReachesTheResetState := by
  intro s rest
  let before : State := { s with pendingInputs := Ports.resetFrame :: rest }
  have hreset : step before = exec .reset before.beginStep := step_of_reset (s := before) rfl
  rw [hreset, resetResult before.beginStep hallTable0 rfl, phaseCode_dorm_sector_zero]
  rfl

end Sys2Proof.Proofs
end
